-- ==== Sys2Proof/Word.lean ====
section
/-! DEFINITION. The bit-vector types of the engine (00_scope.md R5, R9). -/

namespace Sys2Proof

/-- A 32-bit word: a word register, one view of the key, a command word, the data of a host access. -/
abbrev Word := BitVec 32

/-- The 128-bit key, or one key state of the schedule (10_state.md R22): bit 0 least significant. -/
abbrev Key := BitVec 128

/-- A 4-bit nibble, the index and the entry of a substitution table (00_scope.md R6, R10). -/
abbrev Nibble := BitVec 4

/-- An 8-bit round constant (00_scope.md R6). -/
abbrev Byte := BitVec 8

/-- The two halves (L, R) of a block (10_state.md R34). -/
abbrev Block := Word × Word

end Sys2Proof
end

