-- ==== Sys2Proof/Config.lean ====
section
/-! DEFINITION. What the implementation fixes and the spec leaves open: the constant tables, as
uninterpreted parameters, and the values left unspecified by reset, as free values. -/

namespace Sys2Proof

/-- The configuration record of 00_scope.md R6: the parameters `SBOX`, `SBOX_INV` and `RC`.
`sbox` is a permutation of the nibbles, so it carries `SBOX` together with the table `SBOX_INV`
that the premise `SBOX_INV[SBOX[x]] = x` determines (93_implementation_defined.md U2).
DEDUCED (log 1): `SBOX_INV` is not a second independent argument. -/
structure Tables where
  /-- `SBOX`, a bijection of `0..15`, with its inverse. -/
  sbox : Equiv.Perm Nibble
  /-- `RC`, the round constants, indices 0 to 30: no index 31 exists. -/
  rc   : Fin 31 → Byte
  deriving Inhabited

namespace Config

/-- The tables of this engine. The spec prints no value of them (R6, R30, U1 to U3), so nothing
can be proved of them but what `Tables` says. UNVERIFIED (log 1), safe. -/
opaque tables : Tables

/-- Free value: what L holds after the `n`-th reset (10_state.md R35). DESIGN CHOICE (log 2). -/
opaque resetL : Nat → Word

/-- Free value: what R holds after the `n`-th reset (R35). DESIGN CHOICE (log 2). -/
opaque resetR : Nat → Word

/-- Free value: what T holds after the `n`-th reset (R35). DESIGN CHOICE (log 2). -/
opaque resetT : Nat → Word

/-- Free value: what K holds after the `n`-th reset (R35). DESIGN CHOICE (log 2). -/
opaque resetK : Nat → Key

/-- Free value: what entry `i` of RKC holds after the `n`-th reset (R35). DESIGN CHOICE (log 2). -/
opaque resetRkc : Nat → Fin 31 → Key

end Config

end Sys2Proof
end

