-- ==== Sys2Proof/Syntax.lean ====
section
/-! DEFINITION. The 23 commands of 30_encoding.md R86, one constructor each. -/

namespace Sys2Proof

/-- The word registers of 10_state.md R21. Selector value 3 names none and is refused by the
decoder (30_encoding.md R84), so it has no constructor. -/
inductive WordReg where
  /-- Index 0, the left half of the block. -/
  | l
  /-- Index 1, the right half of the block. -/
  | r
  /-- Index 2, the scratch word. -/
  | t
  deriving DecidableEq, Repr

/-- A command with its operands (R86). An immediate is the integer of R83; `WellFormed` holds it
to its legal range. -/
inductive Instr where
  /-- MOV rd, rs (R120). -/
  | mov (rd rs : WordReg)
  /-- XOR rd, rs (R121). -/
  | xor (rd rs : WordReg)
  /-- ROL rd, n (R122). -/
  | rol (rd : WordReg) (n : Nat)
  /-- ROR rd, n (R123). -/
  | ror (rd : WordReg) (n : Nat)
  /-- SBN rd, j (R124). -/
  | sbn (rd : WordReg) (j : Nat)
  /-- ISBN rd, j (R125). -/
  | isbn (rd : WordReg) (j : Nat)
  /-- SBW rd (R126). -/
  | sbw (rd : WordReg)
  /-- ISBW rd (R127). -/
  | isbw (rd : WordReg)
  /-- GKL rd (R128). -/
  | gkl (rd : WordReg)
  /-- GKR rd (R129). -/
  | gkr (rd : WordReg)
  /-- KROL n (R160). -/
  | krol (n : Nat)
  /-- KROR n (R161). -/
  | kror (n : Nat)
  /-- KSBN j (R162). -/
  | ksbn (j : Nat)
  /-- KISBN j (R163). -/
  | kisbn (j : Nat)
  /-- KXRC i (R164). -/
  | kxrc (i : Nat)
  /-- ADVK i (R165). -/
  | advk (i : Nat)
  /-- RETK i (R166). -/
  | retk (i : Nat)
  /-- ROUND (R185). -/
  | round
  /-- IROUND (R186). -/
  | iround
  /-- KEXP (R212). -/
  | kexp
  /-- LDRK i (R213). -/
  | ldrk (i : Nat)
  /-- ENC (R210). -/
  | enc
  /-- DEC (R211). -/
  | dec
  deriving DecidableEq, Repr

end Sys2Proof
end

