-- ==== Sys2Proof/Machine/State.lean ====
section
/-! DEFINITION. The state of the engine (10_state.md), the host events it is driven by, and the state
after reset. -/

namespace Sys2Proof.Machine

/-- What the host can do to the engine, one event a step (20_memory.md R50, 70_reset_and_hazards.md
R260). A register index is 0 to 15 by its type: nothing else can be expressed (R56). -/
inductive HostEvent where
  /-- `RegRead(a)`. -/
  | read (a : Fin 16)
  /-- `RegWrite(a, v)`; at index 0 the word `v` is executed as a command. -/
  | write (a : Fin 16) (v : Word)
  /-- The reset input. -/
  | reset
  deriving DecidableEq, Repr

/-- What stands at a host register index (20_memory.md R51). -/
inductive HostReg where
  /-- Index 0, CMD: write-only, stores nothing. -/
  | cmd
  /-- Index 1, STATUS: read-only. -/
  | status
  /-- Indices 2 to 4: a word register. -/
  | word (x : WordReg)
  /-- Indices 8 to 11: word `q` of the key, bits `32q+31 : 32q`. -/
  | key (q : Fin 4)
  /-- Every other index: reads 0, writes ignored. -/
  | reserved
  deriving DecidableEq, Repr

/-- The causes of `CmdError` (60_exceptions.md R231). -/
inductive ErrCause where
  /-- Cause 1, reserved opcode. -/
  | reservedOpcode
  /-- Cause 2, reserved field value. -/
  | reservedField
  /-- Cause 3, LDRK while `STATUS.RKV = 0`. -/
  | keysNotValid
  deriving DecidableEq, Repr

/-- The whole state. The first eight fields are the architectural state of 10_state.md R21 to R29;
the last three are the MODEL'S OWN (log 3, log 2): the host's side of the interface, which R36
calls an input of the model, and the number of resets taken, which picks the free values. -/
structure State where
  /-- Word register L (R21). -/
  l      : Word
  /-- Word register R (R21). -/
  r      : Word
  /-- Word register T, scratch (R21). -/
  t      : Word
  /-- The key register K (R22). -/
  k      : Key
  /-- The round-key cache RKC, entries 0 to 30 (R29). -/
  rkc    : Vector Key 31
  /-- `STATUS.ERR` (R26). -/
  err    : Bool
  /-- `STATUS.RKV` (R26). -/
  rkv    : Bool
  /-- `STATUS.ECAUSE`, a 2-bit cause code (R26, R28). -/
  ecause : BitVec 2
  /-- Model's own: the host events still to be taken, the next one first (R50, R60). -/
  host   : List HostEvent
  /-- Model's own: the data the reads so far have returned to the host, oldest first (R50). -/
  replies : List Word
  /-- Model's own: how many resets have drawn unspecified values. -/
  resets : Nat
  deriving DecidableEq, Repr

/-- The reasons the machine stops with a fault: there is none. An undecodable word sets
`STATUS.ERR`, which is state (60_exceptions.md R233, log 4); nothing else can go wrong (R232). -/
inductive Fault where
  deriving DecidableEq, Repr

/-- The reasons an instruction has no meaning. -/
inductive Refusal where
  /-- Raised only by an arm of `exec` whose instruction has no meaning yet; no arm does so now.
  Safe: the machine stops. -/
  | notModelled (mnemonic : String)
  deriving DecidableEq, Repr

/-- The engine after the `n`-th reset (R35): the status fields 0, every other register unspecified,
that is, the free values of `Config` at `n`. The host's side is left empty. -/
def State.afterReset (n : Nat) : State where
  l := Config.resetL n
  r := Config.resetR n
  t := Config.resetT n
  k := Config.resetK n
  rkc := Vector.ofFn (Config.resetRkc n)
  err := false
  rkv := false
  ecause := 0
  host := []
  replies := []
  resets := n + 1

/-- The machine right after reset, before the host has done anything (R35, R260, R261). -/
def State.reset : State := State.afterReset 0

end Sys2Proof.Machine
end

