-- ==== Sys2Proof/Machine/Flags.lean ====
section
/-! DEFINITION. STATUS and its fields (10_state.md R26, R28; 60_exceptions.md R231). No data result sets a
flag (R26). -/

namespace Sys2Proof.Machine

/-- The code `STATUS.ECAUSE` holds for a cause (R231). -/
def ErrCause.code : ErrCause → BitVec 2
  | .reservedOpcode => 1
  | .reservedField  => 2
  | .keysNotValid   => 3

/-- The word a read of STATUS returns: ERR at bit 0, RKV at bit 1, ECAUSE at bits 5:4, every other
bit 0 (R28). -/
def State.statusWord (s : State) : Word :=
  0#26 ++ s.ecause ++ 0#2 ++ BitVec.ofBool s.rkv ++ BitVec.ofBool s.err

end Sys2Proof.Machine
end

