-- ==== Sys2Proof/Machine/Primitives.lean ====
section
/-! DEFINITION. The pure functions on words and keys: bit fields (00_scope.md R9, R10), the views of the
key (10_state.md R23, R24), rotation and the substitution layer (40_word_primitives.md part 1). -/

namespace Sys2Proof.Machine

/-! ### Bit fields -/

/-- `v[lo+m-1 : lo] <- e`: those bits replaced, "all other bits untouched" (R9). -/
def replaceField {n m : Nat} (v : BitVec n) (lo : Nat) (e : BitVec m) : BitVec n :=
  (v &&& ~~~((BitVec.allOnes m).setWidth n <<< lo)) ||| (e.setWidth n <<< lo)

/-- Nibble `j` of `v`: `v[4j+3 : 4j]` (R10). -/
def nibble {n : Nat} (v : BitVec n) (j : Nat) : Nibble := v.extractLsb' (4 * j) 4

/-- Nibble `j` of `v` replaced by its image under `f`, the other bits unchanged (R124, R162). -/
def mapNibble {n : Nat} (f : Nibble → Nibble) (j : Nat) (v : BitVec n) : BitVec n :=
  replaceField v (4 * j) (f (nibble v j))

/-! ### Views of the key -/

/-- Word view `q` of a key, bits `32q+31 : 32q` (R23). -/
def keyWord (k : Key) (q : Fin 4) : Word := k.extractLsb' (32 * q.val) 32

/-- The key with word view `q` replaced, "the other 96 bits unchanged" (R23, 20_memory.md R53). -/
def setKeyWord (k : Key) (q : Fin 4) (v : Word) : Key := replaceField k (32 * q.val) v

/-- The sub-key `KL(k) = k[63:32]` (R24). -/
def KL (k : Key) : Word := k.extractLsb' 32 32

/-- The sub-key `KR(k) = k[31:0]` (R24). -/
def KR (k : Key) : Word := k.extractLsb' 0 32

/-! ### Rotation -/

/-- `rotl_N(x, n)`, used on `0 <= n < N` (R112). -/
def rotl {N : Nat} (x : BitVec N) (n : Nat) : BitVec N := x.rotateLeft n

/-- `rotr_N(x, n)`, used on `0 <= n < N` (R113). -/
def rotr {N : Nat} (x : BitVec N) (n : Nat) : BitVec N := x.rotateRight n

/-! ### Substitution -/

/-- The table `SBOX_INV` (00_scope.md R6). -/
def sboxInv (tb : Tables) : Nibble → Nibble := tb.sbox.symm

/-- Every nibble of a word replaced by its image, in its own position (R111). -/
def mapNibbles (f : Nibble → Nibble) (w : Word) : Word :=
  f (nibble w 7) ++ f (nibble w 6) ++ f (nibble w 5) ++ f (nibble w 4) ++
  f (nibble w 3) ++ f (nibble w 2) ++ f (nibble w 1) ++ f (nibble w 0)

/-- `substitute_word(w)` (R111). -/
def substituteWord (tb : Tables) (w : Word) : Word := mapNibbles tb.sbox w

/-- `inv_substitute_word(w)` (R114). -/
def invSubstituteWord (tb : Tables) (w : Word) : Word := mapNibbles (sboxInv tb) w

end Sys2Proof.Machine
end

