-- ==== Sys2Proof/Machine/Ops.lean ====
section
/-! DEFINITION. The named operations on the state: the updates of its parts, taking the one exception and
leaving it by reset, and the host's register window. -/

namespace Sys2Proof.Machine

/-! ### Updates, one per part of the state -/

/-- `x[r]` (00_scope.md R12). -/
def State.reg (s : State) : WordReg → Word
  | .l => s.l
  | .r => s.r
  | .t => s.t

/-- `x[r] <- v` (R12). -/
def State.setReg (s : State) (rd : WordReg) (v : Word) : State :=
  match rd with
  | .l => { s with l := v }
  | .r => { s with r := v }
  | .t => { s with t := v }

/-- `(L, R) <- b`, both at once (42_round.md R184). -/
def State.setBlock (s : State) (b : Block) : State := { s with l := b.1, r := b.2 }

/-- `K <- k`. -/
def State.setKey (s : State) (k : Key) : State := { s with k := k }

/-- All 31 entries of RKC written and `STATUS.RKV <- 1` (43_drivers.md R211, R212). -/
def State.setCache (s : State) (c : Vector Key 31) : State := { s with rkc := c, rkv := true }

/-- The host events still to come. -/
def State.setHost (s : State) (es : List HostEvent) : State := { s with host := es }

/-- `v` returned to the host. -/
def State.reply (s : State) (v : Word) : State := { s with replies := s.replies ++ [v] }

/-! ### The exception and the way out of it -/

/-- `raise CmdError(c)` (60_exceptions.md R233): `STATUS.ERR <- 1`, `STATUS.ECAUSE <- c`, nothing else.
There is no handler, no saved state and no transfer of control. -/
def State.raiseCmdError (s : State) (c : ErrCause) : State :=
  { s with err := true, ecause := c.code }

/-- The reset event (70_reset_and_hazards.md R260): the engine's state as after reset, with values
drawn anew for what R35 leaves unspecified. What the host has read and will still do is the
host's, and stays. There is no return from the exception but this (R236). -/
def State.takeReset (s : State) : State :=
  { State.afterReset s.resets with host := s.host, replies := s.replies }

/-! ### The register window -/

/-- The register map (20_memory.md R51). -/
def HostReg.ofIndex (a : Fin 16) : HostReg :=
  match a.val with
  | 0 => .cmd
  | 1 => .status
  | 2 => .word .l
  | 3 => .word .r
  | 4 => .word .t
  | 8 => .key 0
  | 9 => .key 1
  | 10 => .key 2
  | 11 => .key 3
  | _ => .reserved

/-- `RegRead(a)` (R52). -/
def State.regRead (s : State) (a : Fin 16) : Word :=
  match HostReg.ofIndex a with
  | .cmd => 0
  | .status => s.statusWord
  | .word x => s.reg x
  | .key q => keyWord s.k q
  | .reserved => 0

/-- `RegWrite(a, v)` at every index but CMD (R53): it takes effect whether or not the engine is
faulted, and a write to STATUS or to a reserved index is ignored. -/
def State.dataWrite (s : State) (a : Fin 16) (v : Word) : State :=
  match HostReg.ofIndex a with
  | .cmd | .status | .reserved => s
  | .word x => s.setReg x v
  | .key q => s.setKey (setKeyWord s.k q v)

end Sys2Proof.Machine
end

