-- ==== Sys2Proof/Machine/Operands.lean ====
section
/-! DEFINITION. The immediate operand (30_encoding.md R83). Register operands are `State.reg` and
`State.setReg` of Ops.lean (R84). -/

namespace Sys2Proof.Machine

/-- The effect `f` of a command on its immediate, which must be below `bound`; above the legal range
the command raises `CmdError(2)` and has no effect (R83). -/
def withImm (bound n : Nat) (s : State) (f : Fin bound → State) :
    Host.Outcome State Fault Refusal :=
  if h : n < bound then .next (f ⟨n, h⟩) else .next (s.raiseCmdError .reservedField)

end Sys2Proof.Machine
end

