-- ==== Sys2Proof/Machine/KeyCommands.lean ====
section
/-! DEFINITION. The key schedule and the key commands (41_key_schedule.md R150 to R166). -/

namespace Sys2Proof.Machine

/-! ### The key-update functions -/

/-- `fold_rc(k, rc)`: the low 5 bits of `rc` XORed into `k[63:59]`, their order kept (R152). -/
def foldRc (k : Key) (rc : Byte) : Key :=
  replaceField k 59 (k.extractLsb' 59 5 ^^^ rc.extractLsb' 0 5)

/-- `advance_key(k, rc)`: rotate left 13, key nibble 1 through `SBOX`, fold the constant (R150). -/
def advanceKey (tb : Tables) (k : Key) (rc : Byte) : Key :=
  foldRc (mapNibble tb.sbox 1 (rotl k 13)) rc

/-- `retreat_key(k, rc)`: the inverse steps in reverse order (R151). -/
def retreatKey (tb : Tables) (k : Key) (rc : Byte) : Key :=
  rotr (mapNibble (sboxInv tb) 1 (foldRc k rc)) 13

/-! ### The commands -/

/-- KROL (R160): `K <- rotl_128(K, n)`. -/
def execKrol (n : Nat) (s : State) : Host.Outcome State Fault Refusal :=
  withImm 128 n s fun n => s.setKey (rotl s.k n)

/-- KROR (R161): `K <- rotr_128(K, n)`. -/
def execKror (n : Nat) (s : State) : Host.Outcome State Fault Refusal :=
  withImm 128 n s fun n => s.setKey (rotr s.k n)

/-- KSBN (R162) over given tables: key nibble `j` through `SBOX`. -/
def ksbnWith (tb : Tables) (j : Nat) (s : State) : Host.Outcome State Fault Refusal :=
  withImm 32 j s fun j => s.setKey (mapNibble tb.sbox j s.k)

/-- KSBN (R162). -/
def execKsbn (j : Nat) (s : State) : Host.Outcome State Fault Refusal :=
  ksbnWith Config.tables j s

/-- KISBN (R163) over given tables: key nibble `j` through `SBOX_INV`. -/
def kisbnWith (tb : Tables) (j : Nat) (s : State) : Host.Outcome State Fault Refusal :=
  withImm 32 j s fun j => s.setKey (mapNibble (sboxInv tb) j s.k)

/-- KISBN (R163). -/
def execKisbn (j : Nat) (s : State) : Host.Outcome State Fault Refusal :=
  kisbnWith Config.tables j s

/-- KXRC (R164) over given tables: `K <- fold_rc(K, RC[i])`. -/
def kxrcWith (tb : Tables) (i : Nat) (s : State) : Host.Outcome State Fault Refusal :=
  withImm 31 i s fun i => s.setKey (foldRc s.k (tb.rc i))

/-- KXRC (R164). -/
def execKxrc (i : Nat) (s : State) : Host.Outcome State Fault Refusal :=
  kxrcWith Config.tables i s

/-- ADVK (R165) over given tables: `K <- advance_key(K, RC[i])`. -/
def advkWith (tb : Tables) (i : Nat) (s : State) : Host.Outcome State Fault Refusal :=
  withImm 31 i s fun i => s.setKey (advanceKey tb s.k (tb.rc i))

/-- ADVK (R165). -/
def execAdvk (i : Nat) (s : State) : Host.Outcome State Fault Refusal :=
  advkWith Config.tables i s

/-- RETK (R166) over given tables: `K <- retreat_key(K, RC[i])`. -/
def retkWith (tb : Tables) (i : Nat) (s : State) : Host.Outcome State Fault Refusal :=
  withImm 31 i s fun i => s.setKey (retreatKey tb s.k (tb.rc i))

/-- RETK (R166). -/
def execRetk (i : Nat) (s : State) : Host.Outcome State Fault Refusal :=
  retkWith Config.tables i s

end Sys2Proof.Machine
end

