-- ==== Sys2Proof/Machine/RoundCommands.lean ====
section
/-! DEFINITION. The round, its inverse and their commands (42_round.md R180 to R186). -/

namespace Sys2Proof.Machine

/-- `round(l, r, kl, kr)` (R180). The new right half uses the new left half. -/
def roundFn (tb : Tables) (b : Block) (kl kr : Word) : Block :=
  let lp := substituteWord tb b.1
  let nextL := rotl (lp ^^^ b.2 ^^^ kr) 3
  let nextR := rotr (lp ^^^ nextL ^^^ kl) 7
  (nextL, nextR)

/-- `inv_round(l, r, kl, kr)` (R181). -/
def invRoundFn (tb : Tables) (b : Block) (kl kr : Word) : Block :=
  let a := rotl b.2 7 ^^^ kl
  let lp := a ^^^ b.1
  let prevR := rotr b.1 3 ^^^ lp ^^^ kr
  let prevL := invSubstituteWord tb lp
  (prevL, prevR)

/-- ROUND (R185) over given tables. -/
def roundWith (tb : Tables) (s : State) : Host.Outcome State Fault Refusal :=
  .next (s.setBlock (roundFn tb (s.l, s.r) (KL s.k) (KR s.k)))

/-- ROUND (R185): `(L, R) <- round(L, R, K[63:32], K[31:0])`. -/
def execRound (s : State) : Host.Outcome State Fault Refusal := roundWith Config.tables s

/-- IROUND (R186) over given tables. -/
def iroundWith (tb : Tables) (s : State) : Host.Outcome State Fault Refusal :=
  .next (s.setBlock (invRoundFn tb (s.l, s.r) (KL s.k) (KR s.k)))

/-- IROUND (R186): `(L, R) <- inv_round(L, R, K[63:32], K[31:0])`. -/
def execIround (s : State) : Host.Outcome State Fault Refusal := iroundWith Config.tables s

end Sys2Proof.Machine
end

