-- ==== Sys2Proof/Machine/DriverCommands.lean ====
section
/-! DEFINITION. The encryption and decryption drivers and the round-key cache (43_drivers.md R200 to
R213). The working copy of the key and the loop index are local to a function (10_state.md R31). -/

namespace Sys2Proof.Machine

/-- The loop order `0, 1, ..., 30` of the drivers (R201 to R203). -/
def roundIndices : List (Fin 31) := List.finRange 31

/-- The body of `encrypt` for each index in turn: a round with the sub-keys of the current key, then
the key advanced (R201). -/
def encryptLoop (tb : Tables) : List (Fin 31) → Key → Block → Block
  | [], _, b => b
  | i :: is, k, b => encryptLoop tb is (advanceKey tb k (tb.rc i)) (roundFn tb b (KL k) (KR k))

/-- `encrypt(key, (l, r))` (R201). -/
def encrypt (tb : Tables) (key : Key) (b : Block) : Block := encryptLoop tb roundIndices key b

/-- The body of `expand_keys`: the current key recorded in slot `i`, then the key advanced (R202). -/
def expandLoop (tb : Tables) : List (Fin 31) → Key → Vector Key 31 → Vector Key 31
  | [], _, c => c
  | i :: is, k, c => expandLoop tb is (advanceKey tb k (tb.rc i)) (c.set i k)

/-- `expand_keys(key)` (R202). The cache it fills starts as zeros; every slot is written. -/
def expandKeys (tb : Tables) (key : Key) : Vector Key 31 :=
  expandLoop tb roundIndices key (Vector.replicate 31 0)

/-- Phase 2 of `decrypt` over the given indices in turn (R203). -/
def decryptLoop (tb : Tables) (cache : Vector Key 31) : List (Fin 31) → Block → Block
  | [], b => b
  | i :: is, b => decryptLoop tb cache is (invRoundFn tb b (KL cache[i]) (KR cache[i]))

/-- Phase 2 of `decrypt`: the inverse rounds for `i = 30` down to 0 (R203). -/
def decryptFrom (tb : Tables) (cache : Vector Key 31) (b : Block) : Block :=
  decryptLoop tb cache roundIndices.reverse b

/-- `decrypt(key, (l, r))` (R203). -/
def decrypt (tb : Tables) (key : Key) (b : Block) : Block := decryptFrom tb (expandKeys tb key) b

/-! ### The commands -/

/-- ENC (R210) over given tables. -/
def encWith (tb : Tables) (s : State) : Host.Outcome State Fault Refusal :=
  .next (s.setBlock (encrypt tb s.k (s.l, s.r)))

/-- ENC (R210): `(L, R) <- encrypt(K, (L, R))`; K is read, never written (R209). -/
def execEnc (s : State) : Host.Outcome State Fault Refusal := encWith Config.tables s

/-- DEC (R211) over given tables: the cache rebuilt from K and marked valid, then phase 2 on the
entries just written. -/
def decWith (tb : Tables) (s : State) : Host.Outcome State Fault Refusal :=
  let s₁ := s.setCache (expandKeys tb s.k)
  .next (s₁.setBlock (decryptFrom tb s₁.rkc (s₁.l, s₁.r)))

/-- DEC (R211). -/
def execDec (s : State) : Host.Outcome State Fault Refusal := decWith Config.tables s

/-- KEXP (R212) over given tables: `RKC[0..30] <- expand_keys(K)`, `STATUS.RKV <- 1`. -/
def kexpWith (tb : Tables) (s : State) : Host.Outcome State Fault Refusal :=
  .next (s.setCache (expandKeys tb s.k))

/-- KEXP (R212). -/
def execKexp (s : State) : Host.Outcome State Fault Refusal := kexpWith Config.tables s

/-- LDRK (R213): `K <- RKC[i]`. The immediate is checked first (cause 2), then `STATUS.RKV`
(cause 3): 30_encoding.md R85, 60_exceptions.md R235. -/
def execLdrk (i : Nat) (s : State) : Host.Outcome State Fault Refusal :=
  withImm 31 i s fun i => if s.rkv then s.setKey s.rkc[i] else s.raiseCmdError .keysNotValid

end Sys2Proof.Machine
end

