-- ==== Sys2Proof/Machine/WordCommands.lean ====
section
/-! DEFINITION. The word commands (40_word_primitives.md R118 to R129). A command that uses a table is
written over an arbitrary `Tables` first; its meaning is that at the engine's own tables. -/

namespace Sys2Proof.Machine

/-- MOV (R120): `x[rd] <- x[rs]`. -/
def execMov (rd rs : WordReg) (s : State) : Host.Outcome State Fault Refusal :=
  .next (s.setReg rd (s.reg rs))

/-- XOR (R121): `x[rd] <- x[rd] ^ x[rs]`. -/
def execXor (rd rs : WordReg) (s : State) : Host.Outcome State Fault Refusal :=
  .next (s.setReg rd (s.reg rd ^^^ s.reg rs))

/-- ROL (R122): `x[rd] <- rotl_32(x[rd], n)`. -/
def execRol (rd : WordReg) (n : Nat) (s : State) : Host.Outcome State Fault Refusal :=
  withImm 32 n s fun n => s.setReg rd (rotl (s.reg rd) n)

/-- ROR (R123): `x[rd] <- rotr_32(x[rd], n)`. -/
def execRor (rd : WordReg) (n : Nat) (s : State) : Host.Outcome State Fault Refusal :=
  withImm 32 n s fun n => s.setReg rd (rotr (s.reg rd) n)

/-- SBN (R124) over given tables: nibble `j` of `x[rd]` through `SBOX`. -/
def sbnWith (tb : Tables) (rd : WordReg) (j : Nat) (s : State) : Host.Outcome State Fault Refusal :=
  withImm 8 j s fun j => s.setReg rd (mapNibble tb.sbox j (s.reg rd))

/-- SBN (R124). -/
def execSbn (rd : WordReg) (j : Nat) (s : State) : Host.Outcome State Fault Refusal :=
  sbnWith Config.tables rd j s

/-- ISBN (R125) over given tables: nibble `j` of `x[rd]` through `SBOX_INV`. -/
def isbnWith (tb : Tables) (rd : WordReg) (j : Nat) (s : State) : Host.Outcome State Fault Refusal :=
  withImm 8 j s fun j => s.setReg rd (mapNibble (sboxInv tb) j (s.reg rd))

/-- ISBN (R125). -/
def execIsbn (rd : WordReg) (j : Nat) (s : State) : Host.Outcome State Fault Refusal :=
  isbnWith Config.tables rd j s

/-- SBW (R126) over given tables: `x[rd] <- substitute_word(x[rd])`. -/
def sbwWith (tb : Tables) (rd : WordReg) (s : State) : Host.Outcome State Fault Refusal :=
  .next (s.setReg rd (substituteWord tb (s.reg rd)))

/-- SBW (R126). -/
def execSbw (rd : WordReg) (s : State) : Host.Outcome State Fault Refusal :=
  sbwWith Config.tables rd s

/-- ISBW (R127) over given tables: `x[rd] <- inv_substitute_word(x[rd])`. -/
def isbwWith (tb : Tables) (rd : WordReg) (s : State) : Host.Outcome State Fault Refusal :=
  .next (s.setReg rd (invSubstituteWord tb (s.reg rd)))

/-- ISBW (R127). -/
def execIsbw (rd : WordReg) (s : State) : Host.Outcome State Fault Refusal :=
  isbwWith Config.tables rd s

/-- GKL (R128): `x[rd] <- K[63:32]`. -/
def execGkl (rd : WordReg) (s : State) : Host.Outcome State Fault Refusal :=
  .next (s.setReg rd (KL s.k))

/-- GKR (R129): `x[rd] <- K[31:0]`. -/
def execGkr (rd : WordReg) (s : State) : Host.Outcome State Fault Refusal :=
  .next (s.setReg rd (KR s.k))

end Sys2Proof.Machine
end

