-- ==== Sys2Proof/Machine/Dispatch.lean ====
section
/-! DEFINITION. The meaning of each command, one arm per row of the opcode map (30_encoding.md R86). -/

namespace Sys2Proof.Machine

def exec (i : Instr) (s : State) : Host.Outcome State Fault Refusal :=
  match i with
  | .mov rd rs => Sys2Proof.Machine.execMov rd rs s
  | .xor rd rs => Sys2Proof.Machine.execXor rd rs s
  | .rol rd n => Sys2Proof.Machine.execRol rd n s
  | .ror rd n => Sys2Proof.Machine.execRor rd n s
  | .sbn rd j => Sys2Proof.Machine.execSbn rd j s
  | .isbn rd j => Sys2Proof.Machine.execIsbn rd j s
  | .sbw rd => Sys2Proof.Machine.execSbw rd s
  | .isbw rd => Sys2Proof.Machine.execIsbw rd s
  | .gkl rd => Sys2Proof.Machine.execGkl rd s
  | .gkr rd => Sys2Proof.Machine.execGkr rd s
  | .krol n => Sys2Proof.Machine.execKrol n s
  | .kror n => Sys2Proof.Machine.execKror n s
  | .ksbn j => Sys2Proof.Machine.execKsbn j s
  | .kisbn j => Sys2Proof.Machine.execKisbn j s
  | .kxrc k => Sys2Proof.Machine.execKxrc k s
  | .advk k => Sys2Proof.Machine.execAdvk k s
  | .retk k => Sys2Proof.Machine.execRetk k s
  | .round => Sys2Proof.Machine.execRound s
  | .iround => Sys2Proof.Machine.execIround s
  | .kexp => Sys2Proof.Machine.execKexp s
  | .ldrk k => Sys2Proof.Machine.execLdrk k s
  | .enc => Sys2Proof.Machine.execEnc s
  | .dec => Sys2Proof.Machine.execDec s

end Sys2Proof.Machine
end

