-- ==== Sys2Proof/WellFormed.lean ====
section
/-! DEFINITION. The legal range of each immediate (30_encoding.md R83). Register operands are legal
by their type (R84). -/

namespace Sys2Proof

/-- The largest legal immediate of a command (R83), `none` for a command without one. -/
def Instr.immLimit : Instr → Option Nat
  | .mov _ _ | .xor _ _ | .sbw _ | .isbw _ | .gkl _ | .gkr _ => none
  | .rol _ _ | .ror _ _ => some 31
  | .sbn _ _ | .isbn _ _ => some 7
  | .krol _ | .kror _ => some 127
  | .ksbn _ | .kisbn _ => some 31
  | .kxrc _ | .advk _ | .retk _ | .ldrk _ => some 30
  | .round | .iround | .kexp | .enc | .dec => none

/-- The immediate of a command, 0 where it has none (R86: operands not used are taken as 0). -/
def Instr.imm : Instr → Nat
  | .mov _ _ | .xor _ _ | .sbw _ | .isbw _ | .gkl _ | .gkr _ => 0
  | .rol _ n | .ror _ n => n
  | .sbn _ j | .isbn _ j => j
  | .krol n | .kror n => n
  | .ksbn j | .kisbn j => j
  | .kxrc i | .advk i | .retk i | .ldrk i => i
  | .round | .iround | .kexp | .enc | .dec => 0

/-- The immediate is within the command's legal range (R83). -/
abbrev Instr.WellFormed (i : Instr) : Prop := i.imm ≤ i.immLimit.getD 0

end Sys2Proof
end

