-- ==== Sys2Proof/Decode.lean ====
section
/-! DEFINITION. Decoding a command word (30_encoding.md R80 to R88), total and rejecting by name, and
after it the encoder (R86). -/

namespace Sys2Proof

/-- Why a word is no command: the two decode errors that depend on the word alone (R85 steps 1, 2). -/
inductive DecodeError where
  /-- OP is none of the 23 opcodes (R85 step 1, cause 1). -/
  | reservedOpcode
  /-- A reserved or unused field is not 0, a used register field is 3, or the immediate is above the
  command's range (R85 step 2, cause 2). -/
  | reservedField
  deriving DecidableEq, Repr

/-! ### The fields of a command word (R81) -/

/-- OP, bits 7:0. -/
def fieldOp (w : Word) : BitVec 8 := w.extractLsb' 0 8

/-- RD, bits 9:8. -/
def fieldRd (w : Word) : BitVec 2 := w.extractLsb' 8 2

/-- RS, bits 11:10. -/
def fieldRs (w : Word) : BitVec 2 := w.extractLsb' 10 2

/-- Z1, bits 15:12, reserved. -/
def fieldZ1 (w : Word) : BitVec 4 := w.extractLsb' 12 4

/-- IMM, bits 22:16. -/
def fieldImm (w : Word) : BitVec 7 := w.extractLsb' 16 7

/-- Z2, bits 31:23, reserved. -/
def fieldZ2 (w : Word) : BitVec 9 := w.extractLsb' 23 9

/-- The word register a selector names; 3 names none (R84). -/
def regOfSelector (x : BitVec 2) : Option WordReg :=
  if x = 0 then some .l else if x = 1 then some .r else if x = 2 then some .t else none

/-- The selector of a word register (R84). -/
def selectorOfReg : WordReg → BitVec 2
  | .l => 0
  | .r => 1
  | .t => 2

/-! ### One decoder per format (R82) -/

/-- What every format demands: Z1 and Z2 are 0. -/
def reservedZero (w : Word) : Bool := fieldZ1 w == 0 && fieldZ2 w == 0

/-- Format N: no operand. -/
def decodeN (w : Word) (i : Instr) : Except DecodeError Instr :=
  if reservedZero w && fieldRd w == 0 && fieldRs w == 0 && fieldImm w == 0 then .ok i
  else .error .reservedField

/-- Format R: RD. -/
def decodeR (w : Word) (mk : WordReg → Instr) : Except DecodeError Instr :=
  if reservedZero w && fieldRs w == 0 && fieldImm w == 0 then
    match regOfSelector (fieldRd w) with
    | some rd => .ok (mk rd)
    | none => .error .reservedField
  else .error .reservedField

/-- Format RR: RD and RS. -/
def decodeRR (w : Word) (mk : WordReg → WordReg → Instr) : Except DecodeError Instr :=
  if reservedZero w && fieldImm w == 0 then
    match regOfSelector (fieldRd w), regOfSelector (fieldRs w) with
    | some rd, some rs => .ok (mk rd rs)
    | _, _ => .error .reservedField
  else .error .reservedField

/-- Format RI: RD and an immediate of at most `hi` (R83). -/
def decodeRI (w : Word) (hi : Nat) (mk : WordReg → Nat → Instr) : Except DecodeError Instr :=
  if reservedZero w && fieldRs w == 0 && decide ((fieldImm w).toNat ≤ hi) then
    match regOfSelector (fieldRd w) with
    | some rd => .ok (mk rd (fieldImm w).toNat)
    | none => .error .reservedField
  else .error .reservedField

/-- Format I: an immediate of at most `hi` (R83). -/
def decodeI (w : Word) (hi : Nat) (mk : Nat → Instr) : Except DecodeError Instr :=
  if reservedZero w && fieldRd w == 0 && fieldRs w == 0 && decide ((fieldImm w).toNat ≤ hi) then
    .ok (mk (fieldImm w).toNat)
  else .error .reservedField

/-- The decoder (R85 steps 1 and 2, over the opcode map of R86). Step 3, which reads `STATUS.RKV`,
is in the meaning of LDRK. -/
def decode (w : Word) : Except DecodeError Instr :=
  match (fieldOp w).toNat with
  | 0x01 => decodeRR w .mov
  | 0x02 => decodeRR w .xor
  | 0x03 => decodeRI w 31 .rol
  | 0x04 => decodeRI w 31 .ror
  | 0x05 => decodeRI w 7 .sbn
  | 0x06 => decodeRI w 7 .isbn
  | 0x07 => decodeR w .sbw
  | 0x08 => decodeR w .isbw
  | 0x09 => decodeR w .gkl
  | 0x0A => decodeR w .gkr
  | 0x10 => decodeI w 127 .krol
  | 0x11 => decodeI w 127 .kror
  | 0x12 => decodeI w 31 .ksbn
  | 0x13 => decodeI w 31 .kisbn
  | 0x14 => decodeI w 30 .kxrc
  | 0x18 => decodeI w 30 .advk
  | 0x19 => decodeI w 30 .retk
  | 0x20 => decodeN w .round
  | 0x21 => decodeN w .iround
  | 0x28 => decodeN w .kexp
  | 0x29 => decodeI w 30 .ldrk
  | 0x30 => decodeN w .enc
  | 0x31 => decodeN w .dec
  | _ => .error .reservedOpcode

/-- The decoder on a word numbered as spec/opcode_table.json numbers it: bit 0 the least significant
bit of the one 32-bit command word (R80), the bits from `nbits` up taken as 0. -/
def decodeTableWord (nbits w : Nat) : Option Instr :=
  match decode (BitVec.ofNat 32 (w % 2 ^ nbits)) with
  | .ok i => some i
  | .error _ => none

/-! ### The encoder -/

/-- The command word of the given fields: `OP + rd * 2^8 + rs * 2^10 + imm * 2^16` (R86). -/
def packWord (op : Nat) (rd rs : BitVec 2) (imm : Nat) : Word :=
  BitVec.ofNat 32 (op + rd.toNat * 2 ^ 8 + rs.toNat * 2 ^ 10 + imm * 2 ^ 16)

/-- The word of a well-formed command (R86); an unused operand is 0. -/
def encode : Instr → Word
  | .mov rd rs => packWord 0x01 (selectorOfReg rd) (selectorOfReg rs) 0
  | .xor rd rs => packWord 0x02 (selectorOfReg rd) (selectorOfReg rs) 0
  | .rol rd n  => packWord 0x03 (selectorOfReg rd) 0 n
  | .ror rd n  => packWord 0x04 (selectorOfReg rd) 0 n
  | .sbn rd j  => packWord 0x05 (selectorOfReg rd) 0 j
  | .isbn rd j => packWord 0x06 (selectorOfReg rd) 0 j
  | .sbw rd    => packWord 0x07 (selectorOfReg rd) 0 0
  | .isbw rd   => packWord 0x08 (selectorOfReg rd) 0 0
  | .gkl rd    => packWord 0x09 (selectorOfReg rd) 0 0
  | .gkr rd    => packWord 0x0A (selectorOfReg rd) 0 0
  | .krol n    => packWord 0x10 0 0 n
  | .kror n    => packWord 0x11 0 0 n
  | .ksbn j    => packWord 0x12 0 0 j
  | .kisbn j   => packWord 0x13 0 0 j
  | .kxrc i    => packWord 0x14 0 0 i
  | .advk i    => packWord 0x18 0 0 i
  | .retk i    => packWord 0x19 0 0 i
  | .round     => packWord 0x20 0 0 0
  | .iround    => packWord 0x21 0 0 0
  | .kexp      => packWord 0x28 0 0 0
  | .ldrk i    => packWord 0x29 0 0 i
  | .enc       => packWord 0x30 0 0 0
  | .dec       => packWord 0x31 0 0 0

end Sys2Proof
end

