-- ==== Sys2Proof/Machine/HostPort.lean ====
section
/-! DEFINITION. One step of the interface (20_memory.md R50 to R54, 30_encoding.md R85), over the function
`ex` that executes an admitted command. -/

namespace Sys2Proof.Machine

/-- The cause of a decode error (60_exceptions.md R231). -/
def causeOfDecodeError : DecodeError → ErrCause
  | .reservedOpcode => .reservedOpcode
  | .reservedField  => .reservedField

/-- A write of `w` to CMD. While `STATUS.ERR = 1` it is ignored, whatever the word (R234);
otherwise the word is decoded and executed, or raises `CmdError` (R85). -/
def commandWrite (ex : Instr → State → Host.Outcome State Fault Refusal) (w : Word) (s : State) :
    Host.Outcome State Fault Refusal :=
  if s.err then .next s
  else
    match decode w with
    | .ok i => ex i s
    | .error e => .next (s.raiseCmdError (causeOfDecodeError e))

/-- `RegWrite(a, v)` (R53). -/
def regWrite (ex : Instr → State → Host.Outcome State Fault Refusal) (a : Fin 16) (v : Word)
    (s : State) : Host.Outcome State Fault Refusal :=
  match HostReg.ofIndex a with
  | .cmd => commandWrite ex v s
  | .status | .word _ | .key _ | .reserved => .next (s.dataWrite a v)

/-- One host event taken (R50, R260). A read changes nothing of the engine; its data goes to the
host (R52). -/
def takeEvent (ex : Instr → State → Host.Outcome State Fault Refusal) (e : HostEvent) (s : State) :
    Host.Outcome State Fault Refusal :=
  match e with
  | .read a => .next (s.reply (s.regRead a))
  | .write a v => regWrite ex a v s
  | .reset => .next s.takeReset

/-- One step: the host's next event, taken in full (R50, R60). With none to come the engine holds its
state (R261, 60_exceptions.md R245). -/
def stepOver (ex : Instr → State → Host.Outcome State Fault Refusal) (s : State) :
    Host.Outcome State Fault Refusal :=
  match s.host with
  | [] => .next s
  | e :: es => takeEvent ex e (s.setHost es)

/-- The host's next event is a write to CMD of the `nbits`-bit word `w`, the bits above taken as 0. -/
def State.pushCommand (s : State) (nbits w : Nat) : State :=
  s.setHost (.write 0 (BitVec.ofNat 32 (w % 2 ^ nbits)) :: s.host)

end Sys2Proof.Machine
end

