-- ==== Sys2Proof/Machine/Step.lean ====
section
/-! DEFINITION. The step of the machine: one host event, with the commands of `exec`. -/

namespace Sys2Proof.Machine

/-- One step of the machine (20_memory.md R50). -/
def step (s : State) : Host.Outcome State Fault Refusal := stepOver exec s

/-- `s` with the given command word as the host's next write to CMD, which is where the engine gets
its next command (10_state.md R25, log 5). Nothing else changes. -/
def State.withFetchWord (s : State) (nbits w : Nat) : State := s.pushCommand nbits w

end Sys2Proof.Machine
end

