-- ==== Sys2Proof/Machine/Instance.lean ====
section
/-! DEFINITION. The same machine over GIVEN tables (00_scope.md R6: a model takes the tables as arguments).
`exec` and `step` are these at `Config.tables` (Laws/Exec.lean), so what is proved here for every
`Tables` holds of them, and the worked examples of 95_test_vectors.md can be run. -/

namespace Sys2Proof.Machine

/-- `exec` over the tables `tb`. -/
def execWith (tb : Tables) (i : Instr) (s : State) : Host.Outcome State Fault Refusal :=
  match i with
  | .mov rd rs => execMov rd rs s
  | .xor rd rs => execXor rd rs s
  | .rol rd n => execRol rd n s
  | .ror rd n => execRor rd n s
  | .sbn rd j => sbnWith tb rd j s
  | .isbn rd j => isbnWith tb rd j s
  | .sbw rd => sbwWith tb rd s
  | .isbw rd => isbwWith tb rd s
  | .gkl rd => execGkl rd s
  | .gkr rd => execGkr rd s
  | .krol n => execKrol n s
  | .kror n => execKror n s
  | .ksbn j => ksbnWith tb j s
  | .kisbn j => kisbnWith tb j s
  | .kxrc k => kxrcWith tb k s
  | .advk k => advkWith tb k s
  | .retk k => retkWith tb k s
  | .round => roundWith tb s
  | .iround => iroundWith tb s
  | .kexp => kexpWith tb s
  | .ldrk k => execLdrk k s
  | .enc => encWith tb s
  | .dec => decWith tb s

/-- `step` over the tables `tb`. -/
def stepWith (tb : Tables) (s : State) : Host.Outcome State Fault Refusal := stepOver (execWith tb) s

end Sys2Proof.Machine
end

