-- ==== Sys2Proof/Machine/Transcript.lean ====
section
/-! DEFINITION. The pseudo-instructions of 30_encoding.md R91 and the views of 10_state.md R33, R34: ways to
write a host transcript and to print a key or a block. No command and no register depends on them. -/

namespace Sys2Proof.Machine

/-- `combine128(hi, lo) = hi || lo` (10_state.md R33). -/
def combine128 (hi lo : BitVec 64) : Key := hi ++ lo

/-- `combine64(l, r) = l || r` (R34). -/
def combine64 (b : Block) : BitVec 64 := b.1 ++ b.2

/-- `split64(b) = (b[63:32], b[31:0])` (R34). -/
def split64 (v : BitVec 64) : Block := (v.extractLsb' 32 32, v.extractLsb' 0 32)

/-- `cmd COMMAND`: the command's word written to CMD (30_encoding.md R91). -/
def cmd (i : Instr) : HostEvent := .write 0 (encode i)

/-- `setkey v` (R91). -/
def setkey (v : Key) : List HostEvent :=
  [.write 8 (keyWord v 0), .write 9 (keyWord v 1), .write 10 (keyWord v 2), .write 11 (keyWord v 3)]

/-- `setblk l, r` (R91). -/
def setblk (b : Block) : List HostEvent := [.write 2 b.1, .write 3 b.2]

/-- `getblk` (R91). -/
def getblk : List HostEvent := [.read 2, .read 3]

/-- `getkey` (R91). -/
def getkey : List HostEvent := [.read 8, .read 9, .read 10, .read 11]

/-- `NOP`, that is `MOV L, L` (R91). -/
def nop : Instr := .mov .l .l

/-- `CLR rd`, that is `XOR rd, rd` (R91). -/
def clr (rd : WordReg) : Instr := .xor rd rd

end Sys2Proof.Machine
end

