-- ==== Sys2Proof/Safety.lean ====
section
/-! DEFINITION. Safe states and runs, in the terms the claims use. -/

namespace Sys2Proof.Machine

/-- The faulted state of 60_exceptions.md R234, which only reset leaves. -/
abbrev State.Faulted (s : State) : Prop := s.err = true

/-- Every command of the list executed in turn (the host writing one after another, R208). -/
def execAll : List Instr → State → Host.Outcome State Fault Refusal
  | [], s => .next s
  | i :: is, s =>
    match exec i s with
    | .next s' => execAll is s'
    | .fault f => .fault f
    | .refused x => .refused x

/-- `k` steps from `s` reach `t` and no state on the way, `s` and `t` included, is faulted: a
correct host transcript in the sense of R234. -/
def SafeRun : Nat → State → State → Prop
  | 0, s, t => ¬ s.Faulted ∧ s = t
  | k + 1, s, t => ¬ s.Faulted ∧ ∃ s', step s = .next s' ∧ SafeRun k s' t

/-- What every reachable state keeps of STATUS: a cause is recorded exactly while the engine is
faulted (10_state.md R26), and a refused LDRK leaves `RKV = 0` (60_exceptions.md R231, R234). -/
abbrev State.StatusCoherent (s : State) : Prop :=
  (s.err = false ↔ s.ecause = 0) ∧ (s.ecause = ErrCause.keysNotValid.code → s.rkv = false)

/-- What every reachable state keeps of the cache: while `RKV = 1` it holds the expansion of one key,
the one K held when KEXP or DEC last ran (70_reset_and_hazards.md R264). -/
def State.CacheExpanded (s : State) : Prop :=
  s.rkv = true → ∃ key : Key, s.rkc = expandKeys Config.tables key

end Sys2Proof.Machine
end

