-- ==== Sys2Proof/Certificates/Slice0/Obligations.lean ====
section
/-! DEFINITION. The statements for the provers. Each docstring names the rule of spec/ it formalises. The
tables are `Config.tables`, uninterpreted, so a statement here holds whatever they are (R6). -/

open Sys2Proof Sys2Proof.Machine

namespace Sys2Proof.Claims

/-! ### Vocabulary: what stays the same -/

/-- ERR, RKV and ECAUSE are as before. -/
def SameStatus (s t : State) : Prop := t.err = s.err ∧ t.rkv = s.rkv ∧ t.ecause = s.ecause

/-- The model's own fields are as before. -/
def SameHost (s t : State) : Prop :=
  t.host = s.host ∧ t.replies = s.replies ∧ t.resets = s.resets

/-- Frame of a word command: only word register `rd` may differ (R118). -/
def OnlyWord (rd : WordReg) (s t : State) : Prop :=
  (∀ x, x ≠ rd → t.reg x = s.reg x) ∧ t.k = s.k ∧ t.rkc = s.rkc ∧ SameStatus s t ∧ SameHost s t

/-- Frame of a key command and of LDRK: only K may differ (R155, R213). -/
def OnlyKey (s t : State) : Prop :=
  (∀ x, t.reg x = s.reg x) ∧ t.rkc = s.rkc ∧ SameStatus s t ∧ SameHost s t

/-- Frame of ROUND, IROUND and ENC: only L and R may differ (R184, R210). -/
def OnlyBlock (s t : State) : Prop :=
  t.t = s.t ∧ t.k = s.k ∧ t.rkc = s.rkc ∧ SameStatus s t ∧ SameHost s t

/-- `t` is `s` after `raise CmdError(code)`: ERR is 1, ECAUSE is the code, nothing else differs (R233). -/
def Raised (code : BitVec 2) (s t : State) : Prop :=
  t.err = true ∧ t.ecause = code ∧ t.rkv = s.rkv ∧ (∀ x, t.reg x = s.reg x) ∧ t.k = s.k ∧
  t.rkc = s.rkc ∧ SameHost s t

/-! ### Vocabulary: the opcode map of R86 with the formats of R82 and the ranges of R83 -/

/-- A row of R86: OP, whether RD and RS are used, and the largest legal immediate (0 where the format
has none). -/
structure MapRow where
  op : Nat
  usesRd : Bool
  usesRs : Bool
  immMax : Nat

/-- The 23 rows of R86. -/
def opcodeMap : List MapRow :=
  [⟨0x01, true, true, 0⟩, ⟨0x02, true, true, 0⟩, ⟨0x03, true, false, 31⟩, ⟨0x04, true, false, 31⟩,
   ⟨0x05, true, false, 7⟩, ⟨0x06, true, false, 7⟩, ⟨0x07, true, false, 0⟩, ⟨0x08, true, false, 0⟩,
   ⟨0x09, true, false, 0⟩, ⟨0x0A, true, false, 0⟩, ⟨0x10, false, false, 127⟩,
   ⟨0x11, false, false, 127⟩] ++
  [⟨0x12, false, false, 31⟩, ⟨0x13, false, false, 31⟩, ⟨0x14, false, false, 30⟩,
   ⟨0x18, false, false, 30⟩, ⟨0x19, false, false, 30⟩, ⟨0x20, false, false, 0⟩,
   ⟨0x21, false, false, 0⟩, ⟨0x28, false, false, 0⟩, ⟨0x29, false, false, 30⟩,
   ⟨0x30, false, false, 0⟩, ⟨0x31, false, false, 0⟩]

/-- The word's OP, bits 7:0, as a number. -/
def opOf (w : Word) : Nat := (w.extractLsb' 0 8).toNat

/-- The word's IMM, bits 22:16, as a number. -/
def immOf (w : Word) : Nat := (w.extractLsb' 16 7).toNat

/-- The fields of `w` pass the check of R85 step 2 for this row. -/
def MapRow.FieldsLegal (row : MapRow) (w : Word) : Prop :=
  w.extractLsb' 23 9 = 0 ∧ w.extractLsb' 12 4 = 0 ∧
  (if row.usesRd then w.extractLsb' 8 2 ≠ 3 else w.extractLsb' 8 2 = 0) ∧
  (if row.usesRs then w.extractLsb' 10 2 ≠ 3 else w.extractLsb' 10 2 = 0) ∧
  immOf w ≤ row.immMax

/-- The sequence of key states of R200: `K_0 = key`, `K_(i+1) = advance_key(K_i, RC[i])`. -/
def KeyStates (key : Key) (ks : Nat → Key) : Prop :=
  ks 0 = key ∧ ∀ i : Fin 31, ks (i.val + 1) = advanceKey Config.tables (ks i.val) (Config.tables.rc i)

/-- The host's next event, with `rest` after it. -/
def NextEvent (s : State) (e : HostEvent) (rest : List HostEvent) : Prop := s.host = e :: rest

end Sys2Proof.Claims

open Sys2Proof.Claims

/-! ### Encoding -/

/-- R86, R90: the example words of R90 decode to the commands they are the words of. -/
def Obligations.ExampleWordsDecode : Prop :=
  decode 0x00030003#32 = .ok (.rol .l 3) ∧ decode 0x00070204#32 = .ok (.ror .t 7) ∧
  decode 0x00000402#32 = .ok (.xor .l .r) ∧ decode 0x00000201#32 = .ok (.mov .t .l) ∧
  decode 0x00000007#32 = .ok (.sbw .l) ∧ decode 0x0000010A#32 = .ok (.gkr .r) ∧
  decode 0x000D0010#32 = .ok (.krol 13) ∧ decode 0x00010012#32 = .ok (.ksbn 1) ∧
  decode 0x00050018#32 = .ok (.advk 5) ∧ decode 0x001E0029#32 = .ok (.ldrk 30) ∧
  decode 0x00000030#32 = .ok .enc ∧ decode 0x00000031#32 = .ok .dec

/-- R86: the word of a command decodes to that command, with every operand. -/
def Obligations.DecodeOfEncodeIsTheCommand : Prop :=
  ∀ i : Instr, i.WellFormed → decode (encode i) = .ok i

/-- R86, R88: a word that decodes is the word of exactly the command it decodes to, so no bit of it is
dropped and no two words mean the same command. -/
def Obligations.EncodeOfDecodeIsTheWord : Prop :=
  ∀ (w : Word) (i : Instr), decode w = .ok i → i.WellFormed ∧ encode i = w

/-- R85 steps 1 and 2 on the word alone: which words are refused, and by which name. -/
def Obligations.DecodeClassifiesEveryWord : Prop :=
  ∀ w : Word,
    ((∀ row ∈ opcodeMap, row.op ≠ opOf w) → decode w = .error .reservedOpcode) ∧
    (∀ row ∈ opcodeMap, row.op = opOf w →
      (¬ row.FieldsLegal w → decode w = .error .reservedField) ∧
      (row.FieldsLegal w → ∃ i, decode w = .ok i))

/-! ### Word commands -/

/-- R120: MOV. -/
def Obligations.MovCopiesTheSource : Prop :=
  ∀ (rd rs : WordReg) (s : State), ∃ t, exec (.mov rd rs) s = .next t ∧
    t.reg rd = s.reg rs ∧ OnlyWord rd s t ∧ (rd = rs → t = s)

/-- R121: XOR. -/
def Obligations.XorCombinesBitwise : Prop :=
  ∀ (rd rs : WordReg) (s : State), ∃ t, exec (.xor rd rs) s = .next t ∧
    (∀ b, b < 32 → (t.reg rd).getLsbD b = ((s.reg rd).getLsbD b != (s.reg rs).getLsbD b)) ∧
    OnlyWord rd s t ∧ (rd = rs → t.reg rd = 0#32) ∧ (s.reg rs = 0#32 → t = s)

/-- R122, R112: ROL moves bit `b` to bit `(b + n) mod 32`; an amount above 31 is `CmdError(2)`. -/
def Obligations.RolMovesEachBitUp : Prop :=
  ∀ (rd : WordReg) (n : Nat) (s : State),
    (n ≤ 31 → ∃ t, exec (.rol rd n) s = .next t ∧
      (∀ b, b < 32 → (t.reg rd).getLsbD ((b + n) % 32) = (s.reg rd).getLsbD b) ∧
      OnlyWord rd s t ∧ (n = 0 → t = s)) ∧
    (32 ≤ n → ∃ t, exec (.rol rd n) s = .next t ∧ Raised 2 s t)

/-- R123, R113: ROR moves bit `(b + n) mod 32` to bit `b`; an amount above 31 is `CmdError(2)`. -/
def Obligations.RorMovesEachBitDown : Prop :=
  ∀ (rd : WordReg) (n : Nat) (s : State),
    (n ≤ 31 → ∃ t, exec (.ror rd n) s = .next t ∧
      (∀ b, b < 32 → (t.reg rd).getLsbD b = (s.reg rd).getLsbD ((b + n) % 32)) ∧
      OnlyWord rd s t ∧ (n = 0 → t = s)) ∧
    (32 ≤ n → ∃ t, exec (.ror rd n) s = .next t ∧ Raised 2 s t)

/-- R124: SBN sends nibble `j` through `SBOX`, the other 28 bits unchanged; an index above 7 is
`CmdError(2)`; issued for all eight indices, in any order, it equals SBW. -/
def Obligations.SbnSubstitutesOneNibble : Prop :=
  ∀ (rd : WordReg) (s : State),
    (∀ j, j ≤ 7 → ∃ t, exec (.sbn rd j) s = .next t ∧
      (t.reg rd).extractLsb' (4 * j) 4 = Config.tables.sbox ((s.reg rd).extractLsb' (4 * j) 4) ∧
      (∀ b, b < 32 → ¬ (4 * j ≤ b ∧ b ≤ 4 * j + 3) →
        (t.reg rd).getLsbD b = (s.reg rd).getLsbD b) ∧ OnlyWord rd s t) ∧
    (∀ j, 8 ≤ j → ∃ t, exec (.sbn rd j) s = .next t ∧ Raised 2 s t) ∧
    (∀ js : List Nat, js.Perm [0, 1, 2, 3, 4, 5, 6, 7] →
      execAll (js.map (.sbn rd)) s = exec (.sbw rd) s)

/-- R125: ISBN sends nibble `j` through `SBOX_INV`, other bits unchanged; it undoes SBN, and SBN undoes
it. -/
def Obligations.IsbnSubstitutesBackOneNibble : Prop :=
  ∀ (rd : WordReg) (j : Nat) (s : State),
    (j ≤ 7 →
      (∃ t, exec (.isbn rd j) s = .next t ∧
        Config.tables.sbox ((t.reg rd).extractLsb' (4 * j) 4) = (s.reg rd).extractLsb' (4 * j) 4 ∧
        (∀ b, b < 32 → ¬ (4 * j ≤ b ∧ b ≤ 4 * j + 3) →
          (t.reg rd).getLsbD b = (s.reg rd).getLsbD b) ∧ OnlyWord rd s t) ∧
      execAll [.sbn rd j, .isbn rd j] s = .next s ∧ execAll [.isbn rd j, .sbn rd j] s = .next s) ∧
    (8 ≤ j → ∃ t, exec (.isbn rd j) s = .next t ∧ Raised 2 s t)

/-- R126: SBW sends all eight nibbles through `SBOX`, each in its own place. -/
def Obligations.SbwSubstitutesEveryNibble : Prop :=
  ∀ (rd : WordReg) (s : State), ∃ t, exec (.sbw rd) s = .next t ∧
    (∀ j, j < 8 → (t.reg rd).extractLsb' (4 * j) 4 =
      Config.tables.sbox ((s.reg rd).extractLsb' (4 * j) 4)) ∧ OnlyWord rd s t

/-- R127: ISBW sends all eight nibbles through `SBOX_INV`; it undoes SBW, and SBW undoes it. -/
def Obligations.IsbwSubstitutesBackEveryNibble : Prop :=
  ∀ (rd : WordReg) (s : State),
    (∃ t, exec (.isbw rd) s = .next t ∧
      (∀ j, j < 8 → Config.tables.sbox ((t.reg rd).extractLsb' (4 * j) 4) =
        (s.reg rd).extractLsb' (4 * j) 4) ∧ OnlyWord rd s t) ∧
    execAll [.sbw rd, .isbw rd] s = .next s ∧ execAll [.isbw rd, .sbw rd] s = .next s

/-- R128, R24: GKL copies key bits [63:32], bit `b` of the word being key bit `32 + b`. -/
def Obligations.GklReadsTheUpperSubKey : Prop :=
  ∀ (rd : WordReg) (s : State), ∃ t, exec (.gkl rd) s = .next t ∧
    (∀ b, b < 32 → (t.reg rd).getLsbD b = s.k.getLsbD (32 + b)) ∧ OnlyWord rd s t

/-- R129, R24: GKR copies key bits [31:0]. -/
def Obligations.GkrReadsTheLowerSubKey : Prop :=
  ∀ (rd : WordReg) (s : State), ∃ t, exec (.gkr rd) s = .next t ∧
    (∀ b, b < 32 → (t.reg rd).getLsbD b = s.k.getLsbD b) ∧ OnlyWord rd s t

/-! ### Key commands -/

/-- R160, R112: KROL moves key bit `b` to bit `(b + n) mod 128`; no word decodes to an amount above
127. -/
def Obligations.KrolMovesEachKeyBitUp : Prop :=
  (∀ (n : Nat) (s : State), n ≤ 127 → ∃ t, exec (.krol n) s = .next t ∧
    (∀ b, b < 128 → t.k.getLsbD ((b + n) % 128) = s.k.getLsbD b) ∧ OnlyKey s t ∧ (n = 0 → t = s)) ∧
  (∀ (w : Word) (n : Nat), decode w = .ok (.krol n) → n ≤ 127)

/-- R161, R113: KROR moves key bit `(b + n) mod 128` to bit `b`; no word decodes to an amount above
127. -/
def Obligations.KrorMovesEachKeyBitDown : Prop :=
  (∀ (n : Nat) (s : State), n ≤ 127 → ∃ t, exec (.kror n) s = .next t ∧
    (∀ b, b < 128 → t.k.getLsbD b = s.k.getLsbD ((b + n) % 128)) ∧ OnlyKey s t ∧ (n = 0 → t = s)) ∧
  (∀ (w : Word) (n : Nat), decode w = .ok (.kror n) → n ≤ 127)

/-- R162: KSBN sends key nibble `j` through `SBOX`, the other 124 bits unchanged. -/
def Obligations.KsbnSubstitutesOneKeyNibble : Prop :=
  ∀ (j : Nat) (s : State),
    (j ≤ 31 → ∃ t, exec (.ksbn j) s = .next t ∧
      t.k.extractLsb' (4 * j) 4 = Config.tables.sbox (s.k.extractLsb' (4 * j) 4) ∧
      (∀ b, b < 128 → ¬ (4 * j ≤ b ∧ b ≤ 4 * j + 3) → t.k.getLsbD b = s.k.getLsbD b) ∧
      OnlyKey s t) ∧
    (32 ≤ j → ∃ t, exec (.ksbn j) s = .next t ∧ Raised 2 s t)

/-- R163: KISBN sends key nibble `j` through `SBOX_INV`, other bits unchanged; it undoes KSBN, and KSBN
undoes it. -/
def Obligations.KisbnSubstitutesBackOneKeyNibble : Prop :=
  ∀ (j : Nat) (s : State),
    (j ≤ 31 →
      (∃ t, exec (.kisbn j) s = .next t ∧
        Config.tables.sbox (t.k.extractLsb' (4 * j) 4) = s.k.extractLsb' (4 * j) 4 ∧
        (∀ b, b < 128 → ¬ (4 * j ≤ b ∧ b ≤ 4 * j + 3) → t.k.getLsbD b = s.k.getLsbD b) ∧
        OnlyKey s t) ∧
      execAll [.ksbn j, .kisbn j] s = .next s ∧ execAll [.kisbn j, .ksbn j] s = .next s) ∧
    (32 ≤ j → ∃ t, exec (.kisbn j) s = .next t ∧ Raised 2 s t)

/-- R164, R152: KXRC XORs bit `c` of the round constant, `c` in 0..4, into key bit `59 + c`, all other
key bits unchanged; issued twice it restores K; index 31 and above is `CmdError(2)`. -/
def Obligations.KxrcFoldsTheRoundConstant : Prop :=
  ∀ s : State,
    (∀ i : Fin 31, (∃ t, exec (.kxrc i) s = .next t ∧
        (∀ c, c < 5 → t.k.getLsbD (59 + c) =
          (s.k.getLsbD (59 + c) != (Config.tables.rc i).getLsbD c)) ∧
        (∀ b, b < 128 → ¬ (59 ≤ b ∧ b ≤ 63) → t.k.getLsbD b = s.k.getLsbD b) ∧ OnlyKey s t) ∧
      execAll [.kxrc i, .kxrc i] s = .next s) ∧
    (∀ i : Nat, 31 ≤ i → ∃ t, exec (.kxrc i) s = .next t ∧ Raised 2 s t)

/-- R165, R150: ADVK in terms of the bits of the input: nibble 1 is `SBOX` of `k[122:119]`, the field
[63:59] is `k[50:46]` with the constant folded in, and every other bit `b` is bit `b - 13` (mod
128); index 31 and above is `CmdError(2)`. -/
def Obligations.AdvkAdvancesTheKey : Prop :=
  ∀ s : State,
    (∀ i : Fin 31, ∃ t, exec (.advk i) s = .next t ∧
      t.k.extractLsb' 4 4 = Config.tables.sbox (s.k.extractLsb' 119 4) ∧
      t.k.extractLsb' 59 5 = s.k.extractLsb' 46 5 ^^^ (Config.tables.rc i).extractLsb' 0 5 ∧
      (∀ b, b < 128 → ¬ (4 ≤ b ∧ b ≤ 7) → ¬ (59 ≤ b ∧ b ≤ 63) →
        t.k.getLsbD b = s.k.getLsbD ((b + 115) % 128)) ∧ OnlyKey s t) ∧
    (∀ i : Nat, 31 ≤ i → ∃ t, exec (.advk i) s = .next t ∧ Raised 2 s t)

/-- R166, R151: RETK in terms of the bits of the input: `k[122:119]` of the result goes through `SBOX` to
nibble 1 of the input, `k[50:46]` is the input's [63:59] with the constant folded out, and every
other bit `b` is bit `b + 13` (mod 128). RETK i undoes ADVK i and ADVK i undoes RETK i, all of the
state restored; index 31 and above is `CmdError(2)`. -/
def Obligations.RetkRetreatsTheKey : Prop :=
  ∀ s : State,
    (∀ i : Fin 31, (∃ t, exec (.retk i) s = .next t ∧
        Config.tables.sbox (t.k.extractLsb' 119 4) = s.k.extractLsb' 4 4 ∧
        t.k.extractLsb' 46 5 = s.k.extractLsb' 59 5 ^^^ (Config.tables.rc i).extractLsb' 0 5 ∧
        (∀ b, b < 128 → ¬ (119 ≤ b ∧ b ≤ 122) → ¬ (46 ≤ b ∧ b ≤ 50) →
          t.k.getLsbD b = s.k.getLsbD ((b + 13) % 128)) ∧ OnlyKey s t) ∧
      execAll [.advk i, .retk i] s = .next s ∧ execAll [.retk i, .advk i] s = .next s) ∧
    (∀ i : Nat, 31 ≤ i → ∃ t, exec (.retk i) s = .next t ∧ Raised 2 s t)

/-- R167: ADVK and RETK are the composition of their steps, and KSBN 1 and KXRC i may be exchanged. -/
def Obligations.KeyUpdatesAreTheirThreeSteps : Prop :=
  ∀ (i : Fin 31) (s : State),
    execAll [.krol 13, .ksbn 1, .kxrc i] s = exec (.advk i) s ∧
    execAll [.krol 13, .kxrc i, .ksbn 1] s = exec (.advk i) s ∧
    execAll [.kxrc i, .kisbn 1, .kror 13] s = exec (.retk i) s

/-- R7: bits [7:5] of the round constants influence nothing, in any command. -/
def Obligations.UpperConstantBitsInfluenceNothing : Prop :=
  ∀ tb tb' : Tables, tb.sbox = tb'.sbox →
    (∀ i c, c < 5 → (tb.rc i).getLsbD c = (tb'.rc i).getLsbD c) →
    ∀ (i : Instr) (s : State), execWith tb i s = execWith tb' i s

/-! ### Rounds -/

/-- R185, R180: ROUND, with `lp` the word whose nibbles are `SBOX` of those of L. -/
def Obligations.RoundMixesTheHalves : Prop :=
  ∀ s : State, ∃ (t : State) (lp : Word), exec .round s = .next t ∧
    (∀ j, j < 8 → lp.extractLsb' (4 * j) 4 = Config.tables.sbox (s.l.extractLsb' (4 * j) 4)) ∧
    t.l = rotl (lp ^^^ s.r ^^^ s.k.extractLsb' 0 32) 3 ∧
    t.r = rotr (lp ^^^ t.l ^^^ s.k.extractLsb' 32 32) 7 ∧ OnlyBlock s t

/-- R186, R181: IROUND, with `lp` as steps 1 and 2 recover it from the values on entry. IROUND undoes
ROUND and ROUND undoes IROUND with K unchanged between them, all of the state restored (R182). -/
def Obligations.IroundUnmixesTheHalves : Prop :=
  ∀ s : State,
    (∃ (t : State) (lp : Word), exec .iround s = .next t ∧
      lp = rotl s.r 7 ^^^ s.k.extractLsb' 32 32 ^^^ s.l ∧
      (∀ j, j < 8 → Config.tables.sbox (t.l.extractLsb' (4 * j) 4) = lp.extractLsb' (4 * j) 4) ∧
      t.r = rotr s.l 3 ^^^ lp ^^^ s.k.extractLsb' 0 32 ∧ OnlyBlock s t) ∧
    execAll [.round, .iround] s = .next s ∧ execAll [.iround, .round] s = .next s

/-- R187: ROUND from primitives: the eleven commands leave the state as ROUND does, but for T, which
holds the new R. -/
def Obligations.RoundFromPrimitives : Prop :=
  ∀ s : State, ∃ t, exec .round s = .next t ∧
    execAll [.sbw .l, .mov .t .l, .xor .l .r, .gkr .r, .xor .l .r, .rol .l 3, .xor .t .l, .gkl .r,
      .xor .t .r, .ror .t 7, .mov .r .t] s = .next (t.setReg .t t.r)

/-- R188: IROUND from primitives: the twelve commands leave the state as IROUND does, but for T, which
holds the new R. -/
def Obligations.IroundFromPrimitives : Prop :=
  ∀ s : State, ∃ t, exec .iround s = .next t ∧
    execAll [.rol .r 7, .gkl .t, .xor .r .t, .xor .r .l, .mov .t .l, .ror .t 3, .xor .t .r, .gkr .l,
      .xor .t .l, .isbw .r, .mov .l .r, .mov .r .t] s = .next (t.setReg .t t.r)

/-- R24, R184: key bits [127:64] do not enter a round. -/
def Obligations.UpperKeyHalfDoesNotEnterARound : Prop :=
  ∀ (s : State) (k : Key), k.extractLsb' 0 64 = s.k.extractLsb' 0 64 →
    ∀ i : Instr, i = .round ∨ i = .iround →
      ∃ t, exec i s = .next t ∧ exec i (s.setKey k) = .next (t.setKey k)

/-! ### Drivers -/

/-- R201, R210: ENC takes (L, R) through 31 rounds, `bs i` before round `i`, with the key states of R200,
and writes nothing else. -/
def Obligations.EncRunsThirtyOneRounds : Prop :=
  ∀ s : State, ∃ (t : State) (ks : Nat → Key) (bs : Nat → Block), exec .enc s = .next t ∧
    KeyStates s.k ks ∧ bs 0 = (s.l, s.r) ∧
    (∀ i : Fin 31, bs (i.val + 1) = roundFn Config.tables (bs i.val) (KL (ks i.val)) (KR (ks i.val))) ∧
    (t.l, t.r) = bs 31 ∧ OnlyBlock s t

/-- R212, R202: KEXP records the key states `K_0 .. K_30` of R200 and sets RKV, and writes nothing
else. -/
def Obligations.KexpRecordsTheKeyStates : Prop :=
  ∀ s : State, ∃ (t : State) (ks : Nat → Key), exec .kexp s = .next t ∧ KeyStates s.k ks ∧
    (∀ i : Fin 31, t.rkc[i] = ks i.val) ∧ t.rkv = true ∧
    (∀ x, t.reg x = s.reg x) ∧ t.k = s.k ∧ t.err = s.err ∧ t.ecause = s.ecause ∧ SameHost s t

/-- R203, R211: DEC rebuilds the cache from K whatever it held, sets RKV, takes (L, R) back through the
inverse rounds from 30 to 0, `bs i` after inverse round `i`, and writes nothing else. -/
def Obligations.DecRebuildsTheCacheAndUnrolls : Prop :=
  ∀ s : State, ∃ (t : State) (ks : Nat → Key) (bs : Nat → Block), exec .dec s = .next t ∧
    KeyStates s.k ks ∧ bs 31 = (s.l, s.r) ∧
    (∀ i : Fin 31, bs i.val =
      invRoundFn Config.tables (bs (i.val + 1)) (KL (ks i.val)) (KR (ks i.val))) ∧
    (t.l, t.r) = bs 0 ∧ (∀ i : Fin 31, t.rkc[i] = ks i.val) ∧
    t.rkv = true ∧ t.t = s.t ∧ t.k = s.k ∧ t.err = s.err ∧ t.ecause = s.ecause ∧ SameHost s t

/-- R213, R83, R85: LDRK loads entry `i`, as it is, when RKV is 1; it raises `CmdError(3)` when RKV is 0,
and `CmdError(2)` for an index above 30 whatever RKV is. LDRK 0 after KEXP changes nothing. -/
def Obligations.LdrkLoadsAnEntryOrRaises : Prop :=
  ∀ s : State,
    (∀ i : Fin 31, s.rkv = true → ∃ t, exec (.ldrk i) s = .next t ∧ t.k = s.rkc[i] ∧ OnlyKey s t) ∧
    (∀ i : Fin 31, s.rkv = false → ∃ t, exec (.ldrk i) s = .next t ∧ Raised 3 s t) ∧
    (∀ i : Nat, 31 ≤ i → ∃ t, exec (.ldrk i) s = .next t ∧ Raised 2 s t) ∧
    execAll [.kexp, .ldrk 0] s = exec .kexp s

/-- R204 on the machine (V1): DEC after ENC, and ENC after DEC, restore L and R and leave K and T; the
cache then holds the key's expansion and RKV is 1. -/
def Obligations.EncAndDecUndoEachOther : Prop :=
  ∀ s : State,
    execAll [.enc, .dec] s = execAll [.kexp] s ∧ execAll [.dec, .enc] s = execAll [.kexp] s

/-- R210: ENC is `(L, R) <- encrypt(K, (L, R))`, writes nothing else, and equals the 62 commands ROUND;
ADVK 0; ... ROUND; ADVK 30, but for K, which they leave at `K_31`. -/
def Obligations.EncIsItsSingleSteppedForm : Prop :=
  ∀ s : State, ∃ (t : State) (ks : Nat → Key), exec .enc s = .next t ∧
    (t.l, t.r) = encrypt Config.tables s.k (s.l, s.r) ∧ OnlyBlock s t ∧ KeyStates s.k ks ∧
    execAll ((List.finRange 31).flatMap fun i : Fin 31 => [.round, .advk i]) s =
      .next (t.setKey (ks 31))

/-- R211: DEC writes `expand_keys(K)` to RKC, 1 to RKV and `decrypt(K, (L, R))` to (L, R), nothing else,
whatever RKC and RKV held; and it equals KEXP followed by LDRK i; IROUND for i = 30 down to 0. -/
def Obligations.DecIsItsSingleSteppedForm : Prop :=
  ∀ s : State, ∃ t, exec .dec s = .next t ∧
    t.rkc = expandKeys Config.tables s.k ∧ t.rkv = true ∧
    (t.l, t.r) = decrypt Config.tables s.k (s.l, s.r) ∧
    t.t = s.t ∧ t.k = s.k ∧ t.err = s.err ∧ t.ecause = s.ecause ∧ SameHost s t ∧
    execAll (.kexp :: (List.finRange 31).reverse.flatMap fun i : Fin 31 => [.ldrk i, .iround]) s =
      .next t

/-- R206: from `K_31`, RETK i; IROUND for i = 30 down to 0 gives the (L, R) that DEC gives from `K_0`,
reads and writes no cache, and ends with the original key. -/
def Obligations.DecryptionByWalkingTheKeyBackward : Prop :=
  ∀ s : State, ∃ (t : State) (ks : Nat → Key), exec .dec s = .next t ∧ KeyStates s.k ks ∧
    execAll ((List.finRange 31).reverse.flatMap fun i : Fin 31 => [.retk i, .iround])
      (s.setKey (ks 31)) = .next (s.setBlock (t.l, t.r))

/-- R205: the ciphertext depends on K, L and R alone: two states that agree on those give the same
block, and so for DEC. -/
def Obligations.DriversDependOnKeyAndBlockAlone : Prop :=
  ∀ (s s' : State) (i : Instr), i = .enc ∨ i = .dec → s.k = s'.k → s.l = s'.l → s.r = s'.r →
    ∃ t t', exec i s = .next t ∧ exec i s' = .next t' ∧ t.l = t'.l ∧ t.r = t'.r ∧ t.k = t'.k

/-! ### Whole-machine rules about commands -/

/-- R230: no admitted command raises anything, whatever the data, but LDRK while RKV is 0 (R231). -/
def Obligations.AdmittedCommandsNeverRaise : Prop :=
  ∀ (i : Instr) (s : State), i.WellFormed → (∀ n, i = .ldrk n → s.rkv = true) →
    ∃ t, exec i s = .next t ∧ t.err = s.err ∧ t.ecause = s.ecause

/-- R83: an immediate above the legal range of its command raises `CmdError(2)` and does nothing else.
(KROL and KROR above 127 cannot be encoded; that they raise too is the model's, log 6.) -/
def Obligations.ImmediateAboveRangeRaises : Prop :=
  ∀ (i : Instr) (s : State), ¬ i.WellFormed → ∃ t, exec i s = .next t ∧ Raised 2 s t

/-- R22, R26, R29, R21: which commands may change K, RKV, RKC and T. -/
def Obligations.OnlyTheNamedCommandsWriteEachPart : Prop :=
  ∀ (i : Instr) (s t : State), exec i s = .next t →
    (t.rkc ≠ s.rkc ∨ t.rkv ≠ s.rkv → i = .kexp ∨ i = .dec) ∧
    (t.k ≠ s.k → ∃ n, i = .krol n ∨ i = .kror n ∨ i = .ksbn n ∨ i = .kisbn n ∨ i = .kxrc n ∨
      i = .advk n ∨ i = .retk n ∨ i = .ldrk n) ∧
    (i = .round ∨ i = .iround ∨ i = .enc ∨ i = .dec ∨ i = .kexp → t.t = s.t) ∧
    SameHost s t

/-- R233: what `raise CmdError(c)` does, and that it does nothing else. -/
def Obligations.RaisingSetsErrAndCauseOnly : Prop :=
  ∀ s : State, Raised 1 s (s.raiseCmdError .reservedOpcode) ∧
    Raised 2 s (s.raiseCmdError .reservedField) ∧ Raised 3 s (s.raiseCmdError .keysNotValid)

/-! ### The register window -/

/-- R52, R28: what a read returns at each of the 16 indices, in any state, and that a read changes no
state of the engine. -/
def Obligations.ReadReturnsTheRegister : Prop :=
  ∀ (s : State) (a : Fin 16),
    (a.val = 0 → s.regRead a = 0#32) ∧
    (a.val = 1 → (s.regRead a).toNat = s.ecause.toNat * 16 + s.rkv.toNat * 2 + s.err.toNat) ∧
    (a.val = 2 → s.regRead a = s.l) ∧ (a.val = 3 → s.regRead a = s.r) ∧
    (a.val = 4 → s.regRead a = s.t) ∧
    (a.val = 8 → s.regRead a = s.k.extractLsb' 0 32) ∧
    (a.val = 9 → s.regRead a = s.k.extractLsb' 32 32) ∧
    (a.val = 10 → s.regRead a = s.k.extractLsb' 64 32) ∧
    (a.val = 11 → s.regRead a = s.k.extractLsb' 96 32) ∧
    (a.val ∈ [5, 6, 7, 12, 13, 14, 15] → s.regRead a = 0#32) ∧
    ∃ t, takeEvent exec (.read a) s = .next t ∧ (∀ x, t.reg x = s.reg x) ∧ t.k = s.k ∧
      t.rkc = s.rkc ∧ SameStatus s t

/-- R53: what a write does at each of the 16 indices, in every state, faulted or not; the key writes
leave RKV and RKC alone. -/
def Obligations.WriteReplacesTheRegister : Prop :=
  ∀ (s : State) (a : Fin 16) (v : Word),
    (a.val = 0 → s.err = true → regWrite exec a v s = .next s) ∧
    (a.val = 0 → s.err = false → ∀ i, decode v = .ok i → regWrite exec a v s = exec i s) ∧
    (a.val = 0 → s.err = false → ∀ e, decode v = .error e →
      ∃ t, regWrite exec a v s = .next t ∧ (Raised 1 s t ∨ Raised 2 s t)) ∧
    (a.val = 2 → regWrite exec a v s = .next { s with l := v }) ∧
    (a.val = 3 → regWrite exec a v s = .next { s with r := v }) ∧
    (a.val = 4 → regWrite exec a v s = .next { s with t := v }) ∧
    (8 ≤ a.val → a.val ≤ 11 → ∃ k, regWrite exec a v s = .next { s with k := k } ∧
      ∀ b, b < 128 → k.getLsbD b =
        if 32 * (a.val - 8) ≤ b ∧ b < 32 * (a.val - 8) + 32 then v.getLsbD (b - 32 * (a.val - 8))
        else s.k.getLsbD b) ∧
    (a.val ∈ [1, 5, 6, 7, 12, 13, 14, 15] → regWrite exec a v s = .next s)

/-- R85: the whole of decode and admit: cause 1, else cause 2, else cause 3, else the command whose word
it is, which raises nothing. -/
def Obligations.CommandWriteDecodesAndAdmits : Prop :=
  ∀ (s : State) (w : Word), s.err = false →
    ((∀ row ∈ opcodeMap, row.op ≠ opOf w) → ∃ t, regWrite exec 0 w s = .next t ∧ Raised 1 s t) ∧
    (∀ row ∈ opcodeMap, row.op = opOf w →
      (¬ row.FieldsLegal w → ∃ t, regWrite exec 0 w s = .next t ∧ Raised 2 s t) ∧
      (row.FieldsLegal w → row.op = 0x29 → s.rkv = false →
        ∃ t, regWrite exec 0 w s = .next t ∧ Raised 3 s t) ∧
      (row.FieldsLegal w → (row.op = 0x29 → s.rkv = true) →
        ∃ i t, encode i = w ∧ i.WellFormed ∧ regWrite exec 0 w s = exec i s ∧
          exec i s = .next t ∧ t.err = false))

/-- R234: while ERR is 1 a write to CMD does nothing, whatever the word; reads return what they would
return with ERR 0 (STATUS apart, which shows ERR); writes at the other indices take effect; no
host write clears ERR or changes ECAUSE; the reset event clears ERR. -/
def Obligations.FaultedStateLastsUntilReset : Prop :=
  ∀ s : State, s.err = true →
    (∀ w, regWrite exec 0 w s = .next s) ∧
    (∀ a, a ≠ 1 → s.regRead a = State.regRead { s with err := false, ecause := 0#2 } a) ∧
    (∀ a v, a ≠ 0 → ∃ t, regWrite exec a v s = .next t ∧
      regWrite exec a v { s with err := false, ecause := 0#2 } =
        .next { t with err := false, ecause := 0#2 }) ∧
    (∀ a v t, regWrite exec a v s = .next t → t.err = true ∧ t.ecause = s.ecause) ∧
    s.takeReset.err = false

/-- R60 (a), R23: a read after a write of L, R, T or a key word returns the written value at that index
and the old value at every other. -/
def Obligations.ReadAfterWriteReturnsIt : Prop :=
  ∀ (s : State) (a b : Fin 16) (v : Word), a.val ∈ [2, 3, 4, 8, 9, 10, 11] →
    ∃ t, regWrite exec a v s = .next t ∧ t.regRead b = if b = a then v else s.regRead b

/-! ### The step -/

/-- One event a step, in the model's form of the host's side (log 3): a read answers the host and
changes nothing else; a write is `RegWrite`; a reset is the reset event; with nothing to come the
state is held (R50, R52, R53, R245, R260). -/
def Obligations.StepTakesTheNextHostAccess : Prop :=
  ∀ (s : State) (rest : List HostEvent),
    (∀ a, NextEvent s (.read a) rest → step s = .next ((s.setHost rest).reply (s.regRead a))) ∧
    (∀ a v, NextEvent s (.write a v) rest → step s = regWrite exec a v (s.setHost rest)) ∧
    (NextEvent s .reset rest → step s = .next (s.setHost rest).takeReset) ∧
    (s.host = [] → step s = .next s)

/-- R85 step 4, R53: a step whose event writes a command word to CMD runs the decoded command on the
state with that event taken (log 3: the event queue is the model's). -/
def Obligations.StepRunsTheDecodedCommand : Prop :=
  ∀ (s : State) (w : Word) (rest : List HostEvent) (i : Instr),
    NextEvent s (.write 0 w) rest → s.err = false → decode w = .ok i →
    step s = exec i (s.setHost rest)

/-- R234, R26: over steps, only reset clears ERR, ECAUSE keeps the first cause, and only reset clears
RKV (log 3: the event queue is the model's). -/
def Obligations.OnlyResetClearsTheFault : Prop :=
  ∀ (s t : State), step s = .next t → (∀ rest, ¬ NextEvent s .reset rest) →
    (s.err = true → t.err = true ∧ t.ecause = s.ecause ∧ t.rkv = s.rkv) ∧
    (s.rkv = true → t.rkv = true)

/-- R232, R54: over steps, only a write to CMD can set ERR or change RKC or, reset apart, ECAUSE or RKV:
not a read, not a write to any other index, not reset, not having nothing to do (log 3: the event
queue is the model's; R35: reset leaves RKC unspecified). -/
def Obligations.OnlyACommandCanRaise : Prop :=
  ∀ (s t : State), step s = .next t → (∀ w rest, ¬ NextEvent s (.write 0 w) rest) →
    (t.err = true → s.err = true) ∧
    ((∀ rest, ¬ NextEvent s .reset rest) → SameStatus s t ∧ t.rkc = s.rkc)

/-- R91, R265: the four writes of `setkey`, in any order, leave K at the key written, whatever it held,
and change nothing else (log 3: the event queue is the model's). -/
def Obligations.SetkeyWritesTheWholeKey : Prop :=
  ∀ (s : State) (key : Key) (qs : List (Fin 4)) (rest : List HostEvent), qs.Perm [0, 1, 2, 3] →
    s.host = qs.map (fun q => .write (Fin.ofNat 16 (8 + q.val)) (key.extractLsb' (32 * q.val) 32)) ++
      rest →
    Host.Core.run Sys2Proof.core 4 s = .next ((s.setHost rest).setKey key)

/-- R91: the transcript `setkey key; setblk L, R; cmd ENC; getblk` answers the host `encrypt(key, (L, R))`,
and with DEC `decrypt(key, (L, R))`, from every state that is not faulted, whatever it holds, with ERR 0
throughout as R234 asks (log 3: the event queue and the replies are the model's). -/
def Obligations.TranscriptsComputeEncryptAndDecrypt : Prop :=
  ∀ (s : State) (key : Key) (b : Block) (rest : List HostEvent), s.err = false →
    (s.host = setkey key ++ setblk b ++ [cmd .enc] ++ getblk ++ rest →
      ∃ t, SafeRun 9 s t ∧ t.host = rest ∧ t.k = key ∧
        t.replies = s.replies ++ [(encrypt Config.tables key b).1, (encrypt Config.tables key b).2]) ∧
    (s.host = setkey key ++ setblk b ++ [cmd .dec] ++ getblk ++ rest →
      ∃ t, SafeRun 9 s t ∧ t.host = rest ∧ t.k = key ∧
        t.replies = s.replies ++ [(decrypt Config.tables key b).1, (decrypt Config.tables key b).2])

/-! ### Reset, and rules over all steps -/

/-- R35, R261: after reset ERR, RKV and ECAUSE are 0, STATUS reads 0, and the engine does nothing until
the host performs an access. -/
def Obligations.ResetClearsTheStatusAndWaits : Prop :=
  State.reset.err = false ∧ State.reset.rkv = false ∧ State.reset.ecause = 0#2 ∧
  State.reset.regRead 1 = 0#32 ∧ step State.reset = .next State.reset

/-- R260, R236: the reset event, in any state, the faulted one included, clears ERR, RKV and ECAUSE; what
the host has read and will still do is left alone (log 3), and commands are taken again. -/
def Obligations.ResetEventLeavesTheFault : Prop :=
  ∀ (s : State) (rest : List HostEvent), NextEvent s .reset rest →
    ∃ t, step s = .next t ∧ t.err = false ∧ t.rkv = false ∧ t.ecause = 0#2 ∧ t.host = rest ∧
      t.replies = s.replies ∧
      ∀ (w : Word) (i : Instr) (rest' : List HostEvent), rest = .write 0 w :: rest' →
        decode w = .ok i → step t = exec i (t.setHost rest')

/-- R50, R88: nothing stops the engine: every step answers a next state, with the host's events taken
one at a time, in order, and what a read returned never changed. -/
def Obligations.EveryStepCompletes : Prop :=
  ∀ s : State, ∃ t, step s = .next t ∧ t.host = s.host.tail ∧ s.replies <+: t.replies

/-- R26, R28, R231: STATUS stays coherent at every step: ECAUSE is 0 exactly while ERR is 0, and after
cause 3 RKV is 0. -/
def Obligations.StepsKeepStatusCoherent : Prop :=
  ∀ s t : State, s.StatusCoherent → step s = .next t → t.StatusCoherent

/-- R264, R29: while RKV is 1 the cache is the expansion of one key, whatever is done to K since: every
step keeps it. -/
def Obligations.StepsKeepTheCacheExpanded : Prop :=
  ∀ s t : State, s.CacheExpanded → step s = .next t → t.CacheExpanded

/-- Both invariants hold after reset (R35). -/
def Obligations.ResetMeetsTheInvariants : Prop :=
  State.reset.StatusCoherent ∧ State.reset.CacheExpanded

/-! ### The inverse laws of the primitives, on the machine -/

/-- R115, on the registers of every state: SBW and ISBW, ROL and ROR, KROL and KROR each undo the other,
and a right rotation by `n` is the left rotation by `(N - n) mod N`. -/
def Obligations.PrimitivesUndoEachOther : Prop :=
  ∀ (rd : WordReg) (s : State),
    execAll [.sbw rd, .isbw rd] s = .next s ∧ execAll [.isbw rd, .sbw rd] s = .next s ∧
    (∀ n, n ≤ 31 →
      execAll [.rol rd n, .ror rd n] s = .next s ∧ execAll [.ror rd n, .rol rd n] s = .next s ∧
      exec (.ror rd n) s = exec (.rol rd ((32 - n) % 32)) s) ∧
    (∀ n, n ≤ 127 →
      execAll [.krol n, .kror n] s = .next s ∧ execAll [.kror n, .krol n] s = .next s ∧
      exec (.kror n) s = exec (.krol ((128 - n) % 128)) s)

/-- R153: for every bijective `SBOX`, every key and every 8-bit constant `rc`, whatever the 31 entries of
the engine's own table are, `retreat_key` undoes `advance_key` and `advance_key` undoes
`retreat_key`: said of ADVK i and RETK i over the tables whose every constant is `rc`. -/
def Obligations.ScheduleInverseLawForEveryConstant : Prop :=
  ∀ (sbox : Equiv.Perm Nibble) (rc : Byte) (i : Fin 31) (s : State),
    let tb : Tables := { sbox := sbox, rc := fun _ => rc }
    (∃ t, execWith tb (.advk i) s = .next t ∧ t.k = advanceKey tb s.k rc ∧
      retreatKey tb t.k rc = s.k ∧ execWith tb (.retk i) t = .next s) ∧
    (∃ t, execWith tb (.retk i) s = .next t ∧ t.k = retreatKey tb s.k rc ∧
      advanceKey tb t.k rc = s.k ∧ execWith tb (.advk i) t = .next s)
end

