-- ==== Sys2Proof/Laws/Decode.lean ====
section
/-! SUPPORT. The fields of an encoded word, each format decoder on them, and what a decoded word says of
its fields (30_encoding.md R81 to R86). -/

namespace Sys2Proof

/-! ### Selectors -/

@[simp] theorem regOfSelector_selectorOfReg (x : WordReg) :
    regOfSelector (selectorOfReg x) = some x := by cases x <;> rfl

/-- A selector that names a register is that register's selector (R84). -/
theorem selectorOfReg_of_regOfSelector {x : BitVec 2} {y : WordReg}
    (h : regOfSelector x = some y) : selectorOfReg y = x := by
  revert x y
  decide

/-! ### Fields of a packed word -/

section
variable {op : Nat} {rd rs : BitVec 2} {imm : Nat}

/-- The packed word as a number: no field runs into the next. -/
theorem toNat_packWord (ho : op < 256) (hi : imm < 128) :
    (packWord op rd rs imm).toNat = op + rd.toNat * 2 ^ 8 + rs.toNat * 2 ^ 10 + imm * 2 ^ 16 := by
  have h1 := rd.isLt
  have h2 := rs.isLt
  rw [packWord, BitVec.toNat_ofNat, Nat.mod_eq_of_lt (by omega)]

theorem fieldOp_packWord (ho : op < 256) (hi : imm < 128) :
    (fieldOp (packWord op rd rs imm)).toNat = op := by
  have h1 := rd.isLt
  have h2 := rs.isLt
  rw [fieldOp, BitVec.extractLsb'_toNat, toNat_packWord ho hi, Nat.shiftRight_eq_div_pow]
  omega

theorem fieldRd_packWord (ho : op < 256) (hi : imm < 128) :
    fieldRd (packWord op rd rs imm) = rd := by
  have h1 := rd.isLt
  have h2 := rs.isLt
  apply BitVec.eq_of_toNat_eq
  rw [fieldRd, BitVec.extractLsb'_toNat, toNat_packWord ho hi, Nat.shiftRight_eq_div_pow]
  omega

theorem fieldRs_packWord (ho : op < 256) (hi : imm < 128) :
    fieldRs (packWord op rd rs imm) = rs := by
  have h1 := rd.isLt
  have h2 := rs.isLt
  apply BitVec.eq_of_toNat_eq
  rw [fieldRs, BitVec.extractLsb'_toNat, toNat_packWord ho hi, Nat.shiftRight_eq_div_pow]
  omega

theorem fieldImm_packWord (ho : op < 256) (hi : imm < 128) :
    (fieldImm (packWord op rd rs imm)).toNat = imm := by
  have h1 := rd.isLt
  have h2 := rs.isLt
  rw [fieldImm, BitVec.extractLsb'_toNat, toNat_packWord ho hi, Nat.shiftRight_eq_div_pow]
  omega

theorem reservedZero_packWord (ho : op < 256) (hi : imm < 128) :
    reservedZero (packWord op rd rs imm) = true := by
  have h1 := rd.isLt
  have h2 := rs.isLt
  have e1 : fieldZ1 (packWord op rd rs imm) = 0 := by
    apply BitVec.eq_of_toNat_eq
    rw [fieldZ1, BitVec.extractLsb'_toNat, toNat_packWord ho hi, Nat.shiftRight_eq_div_pow]
    change _ = 0
    omega
  have e2 : fieldZ2 (packWord op rd rs imm) = 0 := by
    apply BitVec.eq_of_toNat_eq
    rw [fieldZ2, BitVec.extractLsb'_toNat, toNat_packWord ho hi, Nat.shiftRight_eq_div_pow]
    change _ = 0
    omega
  rw [reservedZero, e1, e2]
  rfl

end

/-- A word is what its fields pack to, once Z1 and Z2 are 0 (R81). -/
theorem packWord_fields (w : Word) (h : reservedZero w = true) :
    packWord (fieldOp w).toNat (fieldRd w) (fieldRs w) (fieldImm w).toNat = w := by
  rw [reservedZero, Bool.and_eq_true, beq_iff_eq, beq_iff_eq] at h
  have z1 : (fieldZ1 w).toNat = 0 := congrArg BitVec.toNat h.1
  have z2 : (fieldZ2 w).toNat = 0 := congrArg BitVec.toNat h.2
  have hw := w.isLt
  apply BitVec.eq_of_toNat_eq
  rw [toNat_packWord (fieldOp w).isLt (fieldImm w).isLt]
  simp only [fieldOp, fieldRd, fieldRs, fieldZ1, fieldZ2, fieldImm, BitVec.extractLsb'_toNat,
    Nat.shiftRight_eq_div_pow] at z1 z2 ⊢
  omega

/-! ### Each format decoder, inverted -/

theorem decodeN_eq_ok {w : Word} {i j : Instr} :
    decodeN w i = .ok j ↔
      reservedZero w = true ∧ fieldRd w = 0 ∧ fieldRs w = 0 ∧ (fieldImm w).toNat = 0 ∧ j = i := by
  have hz : fieldImm w = 0 ↔ (fieldImm w).toNat = 0 :=
    ⟨fun h => by rw [h]; rfl, fun h => BitVec.eq_of_toNat_eq h⟩
  unfold decodeN
  split
  · rename_i h
    simp only [Bool.and_eq_true, beq_iff_eq] at h
    simp only [Except.ok.injEq]
    constructor
    · rintro rfl; exact ⟨h.1.1.1, h.1.1.2, h.1.2, hz.mp h.2, rfl⟩
    · rintro ⟨-, -, -, -, rfl⟩; rfl
  · rename_i h
    simp only [Bool.and_eq_true, beq_iff_eq] at h
    constructor
    · intro h'; cases h'
    · rintro ⟨h1, h2, h3, h4, -⟩; exact absurd ⟨⟨⟨h1, h2⟩, h3⟩, hz.mpr h4⟩ h

theorem decodeR_eq_ok {w : Word} {mk : WordReg → Instr} {j : Instr} :
    decodeR w mk = .ok j ↔
      reservedZero w = true ∧ fieldRs w = 0 ∧ (fieldImm w).toNat = 0 ∧
        ∃ rd, regOfSelector (fieldRd w) = some rd ∧ j = mk rd := by
  have hz : fieldImm w = 0 ↔ (fieldImm w).toNat = 0 :=
    ⟨fun h => by rw [h]; rfl, fun h => BitVec.eq_of_toNat_eq h⟩
  unfold decodeR
  split
  · rename_i h
    simp only [Bool.and_eq_true, beq_iff_eq] at h
    cases hr : regOfSelector (fieldRd w) with
    | none => simp
    | some rd =>
      simp only [Except.ok.injEq, Option.some.injEq, exists_eq_left', h.1.1, h.1.2, hz.mp h.2,
        true_and]
      exact eq_comm
  · rename_i h
    simp only [Bool.and_eq_true, beq_iff_eq] at h
    constructor
    · intro h'; cases h'
    · rintro ⟨h1, h2, h3, -⟩; exact absurd ⟨⟨h1, h2⟩, hz.mpr h3⟩ h

theorem decodeRR_eq_ok {w : Word} {mk : WordReg → WordReg → Instr} {j : Instr} :
    decodeRR w mk = .ok j ↔
      reservedZero w = true ∧ (fieldImm w).toNat = 0 ∧
        ∃ rd rs, regOfSelector (fieldRd w) = some rd ∧ regOfSelector (fieldRs w) = some rs ∧
          j = mk rd rs := by
  have hz : fieldImm w = 0 ↔ (fieldImm w).toNat = 0 :=
    ⟨fun h => by rw [h]; rfl, fun h => BitVec.eq_of_toNat_eq h⟩
  unfold decodeRR
  split
  · rename_i h
    simp only [Bool.and_eq_true, beq_iff_eq] at h
    cases hr : regOfSelector (fieldRd w) with
    | none => simp
    | some rd =>
      cases hs : regOfSelector (fieldRs w) with
      | none => simp
      | some rs =>
        simp only [Except.ok.injEq, Option.some.injEq, exists_and_left, exists_eq_left',
          h.1, hz.mp h.2, true_and]
        exact eq_comm
  · rename_i h
    simp only [Bool.and_eq_true, beq_iff_eq] at h
    constructor
    · intro h'; cases h'
    · rintro ⟨h1, h2, -⟩; exact absurd ⟨h1, hz.mpr h2⟩ h

theorem decodeRI_eq_ok {w : Word} {hi : Nat} {mk : WordReg → Nat → Instr} {j : Instr} :
    decodeRI w hi mk = .ok j ↔
      reservedZero w = true ∧ fieldRs w = 0 ∧ (fieldImm w).toNat ≤ hi ∧
        ∃ rd, regOfSelector (fieldRd w) = some rd ∧ j = mk rd (fieldImm w).toNat := by
  unfold decodeRI
  split
  · rename_i h
    simp only [Bool.and_eq_true, beq_iff_eq, decide_eq_true_eq] at h
    cases hr : regOfSelector (fieldRd w) with
    | none => simp
    | some rd =>
      simp only [Except.ok.injEq, Option.some.injEq, exists_eq_left', h, true_and]
      exact eq_comm
  · rename_i h
    simp only [Bool.and_eq_true, beq_iff_eq, decide_eq_true_eq] at h
    constructor
    · intro h'; cases h'
    · rintro ⟨h1, h2, h3, -⟩; exact absurd ⟨⟨h1, h2⟩, h3⟩ h

theorem decodeI_eq_ok {w : Word} {hi : Nat} {mk : Nat → Instr} {j : Instr} :
    decodeI w hi mk = .ok j ↔
      reservedZero w = true ∧ fieldRd w = 0 ∧ fieldRs w = 0 ∧ (fieldImm w).toNat ≤ hi ∧
        j = mk (fieldImm w).toNat := by
  unfold decodeI
  split
  · rename_i h
    simp only [Bool.and_eq_true, beq_iff_eq, decide_eq_true_eq] at h
    simp only [Except.ok.injEq, h, true_and]
    exact eq_comm
  · rename_i h
    simp only [Bool.and_eq_true, beq_iff_eq, decide_eq_true_eq] at h
    constructor
    · intro h'; cases h'
    · rintro ⟨h1, h2, h3, h4, -⟩; exact absurd ⟨⟨⟨h1, h2⟩, h3⟩, h4⟩ h

/-! ### The row a word's OP selects (R86) -/

section
variable {w : Word}

theorem decode_mov (h : (fieldOp w).toNat = 0x01) : decode w = decodeRR w .mov := by
  unfold decode; rw [h]; rfl
theorem decode_xor (h : (fieldOp w).toNat = 0x02) : decode w = decodeRR w .xor := by
  unfold decode; rw [h]; rfl
theorem decode_rol (h : (fieldOp w).toNat = 0x03) : decode w = decodeRI w 31 .rol := by
  unfold decode; rw [h]; rfl
theorem decode_ror (h : (fieldOp w).toNat = 0x04) : decode w = decodeRI w 31 .ror := by
  unfold decode; rw [h]; rfl
theorem decode_sbn (h : (fieldOp w).toNat = 0x05) : decode w = decodeRI w 7 .sbn := by
  unfold decode; rw [h]; rfl
theorem decode_isbn (h : (fieldOp w).toNat = 0x06) : decode w = decodeRI w 7 .isbn := by
  unfold decode; rw [h]; rfl
theorem decode_sbw (h : (fieldOp w).toNat = 0x07) : decode w = decodeR w .sbw := by
  unfold decode; rw [h]; rfl
theorem decode_isbw (h : (fieldOp w).toNat = 0x08) : decode w = decodeR w .isbw := by
  unfold decode; rw [h]; rfl
theorem decode_gkl (h : (fieldOp w).toNat = 0x09) : decode w = decodeR w .gkl := by
  unfold decode; rw [h]; rfl
theorem decode_gkr (h : (fieldOp w).toNat = 0x0A) : decode w = decodeR w .gkr := by
  unfold decode; rw [h]; rfl
theorem decode_krol (h : (fieldOp w).toNat = 0x10) : decode w = decodeI w 127 .krol := by
  unfold decode; rw [h]; rfl
theorem decode_kror (h : (fieldOp w).toNat = 0x11) : decode w = decodeI w 127 .kror := by
  unfold decode; rw [h]; rfl
theorem decode_ksbn (h : (fieldOp w).toNat = 0x12) : decode w = decodeI w 31 .ksbn := by
  unfold decode; rw [h]; rfl
theorem decode_kisbn (h : (fieldOp w).toNat = 0x13) : decode w = decodeI w 31 .kisbn := by
  unfold decode; rw [h]; rfl
theorem decode_kxrc (h : (fieldOp w).toNat = 0x14) : decode w = decodeI w 30 .kxrc := by
  unfold decode; rw [h]; rfl
theorem decode_advk (h : (fieldOp w).toNat = 0x18) : decode w = decodeI w 30 .advk := by
  unfold decode; rw [h]; rfl
theorem decode_retk (h : (fieldOp w).toNat = 0x19) : decode w = decodeI w 30 .retk := by
  unfold decode; rw [h]; rfl
theorem decode_round (h : (fieldOp w).toNat = 0x20) : decode w = decodeN w .round := by
  unfold decode; rw [h]; rfl
theorem decode_iround (h : (fieldOp w).toNat = 0x21) : decode w = decodeN w .iround := by
  unfold decode; rw [h]; rfl
theorem decode_kexp (h : (fieldOp w).toNat = 0x28) : decode w = decodeN w .kexp := by
  unfold decode; rw [h]; rfl
theorem decode_ldrk (h : (fieldOp w).toNat = 0x29) : decode w = decodeI w 30 .ldrk := by
  unfold decode; rw [h]; rfl
theorem decode_enc (h : (fieldOp w).toNat = 0x30) : decode w = decodeN w .enc := by
  unfold decode; rw [h]; rfl
theorem decode_dec (h : (fieldOp w).toNat = 0x31) : decode w = decodeN w .dec := by
  unfold decode; rw [h]; rfl

end

end Sys2Proof
end

