-- ==== Sys2Proof/Laws/Primitives.lean ====
section
/-! SUPPORT. What the pure functions of Machine/Primitives.lean do, bit by bit and nibble by nibble. -/

namespace Sys2Proof.Machine

/-! ### Fields -/

/-- The bits of a replaced field: `e` inside it, `v` outside (00_scope.md R9). -/
theorem getLsbD_replaceField {n m : Nat} (v : BitVec n) (lo : Nat) (e : BitVec m) (h : lo + m ≤ n)
    (i : Nat) :
    (replaceField v lo e).getLsbD i =
      if lo ≤ i ∧ i < lo + m then e.getLsbD (i - lo) else v.getLsbD i := by
  unfold replaceField
  by_cases hi : i < n
  · simp only [BitVec.getLsbD_or, BitVec.getLsbD_and, BitVec.getLsbD_not, BitVec.getLsbD_shiftLeft,
      BitVec.getLsbD_setWidth, BitVec.getLsbD_allOnes, hi, decide_true, Bool.true_and]
    by_cases h1 : lo ≤ i
    · by_cases h2 : i < lo + m
      · have : i - lo < m := by omega
        have : i - lo < n := by omega
        have : ¬ i < lo := by omega
        simp [*]
      · have h3 : ¬ i - lo < m := by omega
        have : e.getLsbD (i - lo) = false := BitVec.getLsbD_of_ge _ _ (by omega)
        simp [*]
    · have : i < lo := by omega
      simp [*]
  · have h1 : ¬ i < lo + m := by omega
    simp [h1, BitVec.getLsbD_of_ge _ _ (Nat.le_of_not_lt hi)]

/-- A bit of a nibble (R10). -/
theorem getLsbD_nibble {n : Nat} (v : BitVec n) (j i : Nat) (hi : i < 4) :
    (nibble v j).getLsbD i = v.getLsbD (4 * j + i) := by
  simp [nibble, hi]

/-- The bits of `mapNibble`: nibble `j` through `f`, every other bit as before. -/
theorem getLsbD_mapNibble {n : Nat} (f : Nibble → Nibble) (j : Nat) (v : BitVec n)
    (h : 4 * j + 4 ≤ n) (i : Nat) :
    (mapNibble f j v).getLsbD i =
      if 4 * j ≤ i ∧ i < 4 * j + 4 then (f (nibble v j)).getLsbD (i - 4 * j) else v.getLsbD i :=
  getLsbD_replaceField v (4 * j) _ h i

/-- `mapNibble` sends nibble `j` through the table. -/
theorem nibble_mapNibble_self {n : Nat} (f : Nibble → Nibble) (j : Nat) (v : BitVec n)
    (h : 4 * j + 4 ≤ n) : nibble (mapNibble f j v) j = f (nibble v j) := by
  apply BitVec.eq_of_getLsbD_eq
  intro i hi
  rw [getLsbD_nibble _ _ _ hi, getLsbD_mapNibble f j v h, if_pos (by omega)]
  congr 1
  omega

/-- `mapNibble` leaves every other nibble alone. -/
theorem nibble_mapNibble_other {n : Nat} (f : Nibble → Nibble) (j j' : Nat) (v : BitVec n)
    (h : 4 * j + 4 ≤ n) (hj : j' ≠ j) : nibble (mapNibble f j v) j' = nibble v j' := by
  apply BitVec.eq_of_getLsbD_eq
  intro i hi
  rw [getLsbD_nibble _ _ _ hi, getLsbD_nibble _ _ _ hi, getLsbD_mapNibble f j v h, if_neg (by omega)]

/-- Two vectors of whole nibbles with equal nibbles are equal. -/
theorem eq_of_nibble_eq {n : Nat} (v w : BitVec (4 * n))
    (h : ∀ j, j < n → nibble v j = nibble w j) : v = w := by
  apply BitVec.eq_of_getLsbD_eq
  intro i hi
  have hj := h (i / 4) (by omega)
  have e : i = 4 * (i / 4) + i % 4 := by omega
  rw [e, ← getLsbD_nibble v _ _ (by omega), hj, getLsbD_nibble w _ _ (by omega)]

/-- Mapping one nibble by `f` and then by `g`, with `g` undoing `f`, changes nothing. -/
theorem mapNibble_mapNibble {n : Nat} (f g : Nibble → Nibble) (hfg : ∀ x, g (f x) = x) (j : Nat)
    (v : BitVec n) (h : 4 * j + 4 ≤ n) : mapNibble g j (mapNibble f j v) = v := by
  apply BitVec.eq_of_getLsbD_eq
  intro i hi
  rw [getLsbD_mapNibble g j _ h, nibble_mapNibble_self f j v h, hfg]
  split
  · rw [getLsbD_nibble _ _ _ (by omega)]
    congr 1
    omega
  · rw [getLsbD_mapNibble f j v h, if_neg ‹_›]

/-- `mapNibble` on different nibbles commutes. -/
theorem mapNibble_comm {n : Nat} (f g : Nibble → Nibble) (j j' : Nat) (v : BitVec n)
    (h : 4 * j + 4 ≤ n) (h' : 4 * j' + 4 ≤ n) (hj : j ≠ j') :
    mapNibble f j (mapNibble g j' v) = mapNibble g j' (mapNibble f j v) := by
  apply BitVec.eq_of_getLsbD_eq
  intro i _
  rw [getLsbD_mapNibble f j (mapNibble g j' v) h, getLsbD_mapNibble g j' (mapNibble f j v) h',
    getLsbD_mapNibble g j' v h', getLsbD_mapNibble f j v h, nibble_mapNibble_other g j' j v h' hj,
    nibble_mapNibble_other f j j' v h hj.symm]
  split <;> split <;> first | rfl | (exfalso; omega)

/-! ### Views of the key -/

/-- Reading back the word view just written (10_state.md R23). -/
theorem keyWord_setKeyWord_self (k : Key) (q : Fin 4) (v : Word) :
    keyWord (setKeyWord k q v) q = v := by
  apply BitVec.eq_of_getLsbD_eq
  intro i hi
  have hq := q.isLt
  simp only [keyWord, setKeyWord, BitVec.getLsbD_extractLsb', hi, decide_true, Bool.true_and]
  rw [getLsbD_replaceField _ _ _ (by omega), if_pos (by omega)]
  congr 1
  omega

/-- A write of one word view leaves the others alone (R23). -/
theorem keyWord_setKeyWord_other (k : Key) (q q' : Fin 4) (v : Word) (h : q' ≠ q) :
    keyWord (setKeyWord k q v) q' = keyWord k q' := by
  apply BitVec.eq_of_getLsbD_eq
  intro i hi
  have hq := q.isLt
  have hne : q'.val ≠ q.val := fun e => h (Fin.ext e)
  simp only [keyWord, setKeyWord, BitVec.getLsbD_extractLsb', hi, decide_true, Bool.true_and]
  rw [getLsbD_replaceField _ _ _ (by omega), if_neg (by omega)]

/-! ### Rotation -/

/-- The bits of a left rotation (40_word_primitives.md R112). -/
theorem getLsbD_rotl {N : Nat} (x : BitVec N) (n i : Nat) (hn : n < N) (hi : i < N) :
    (rotl x n).getLsbD i = x.getLsbD ((i + (N - n)) % N) := by
  rw [rotl, BitVec.getLsbD_rotateLeft, Nat.mod_eq_of_lt hn, Bool.cond_decide]
  split
  · rw [Nat.mod_eq_of_lt (by omega : i + (N - n) < N)]
    congr 1
    omega
  · have : (i + (N - n)) % N = i - n := by
      have e : i + (N - n) = i - n + N := by omega
      rw [e, Nat.add_mod_right, Nat.mod_eq_of_lt (by omega)]
    simp [this, hi]

/-- The bits of a right rotation (R113). -/
theorem getLsbD_rotr {N : Nat} (x : BitVec N) (n i : Nat) (hn : n < N) (hi : i < N) :
    (rotr x n).getLsbD i = x.getLsbD ((i + n) % N) := by
  rw [rotr, BitVec.getLsbD_rotateRight, Nat.mod_eq_of_lt hn, Bool.cond_decide]
  split
  · rw [Nat.mod_eq_of_lt (by omega : i + n < N)]
    congr 1
    omega
  · have : (i + n) % N = i - (N - n) := by
      have e : i + n = i - (N - n) + N := by omega
      rw [e, Nat.add_mod_right, Nat.mod_eq_of_lt (by omega)]
    simp [this, hi]

/-- A right rotation undoes the left rotation by the same amount (R115). -/
theorem rotr_rotl {N : Nat} (x : BitVec N) (n : Nat) (hn : n < N) : rotr (rotl x n) n = x := by
  apply BitVec.eq_of_getLsbD_eq
  intro i hi
  rw [getLsbD_rotr _ _ _ hn hi, getLsbD_rotl _ _ _ hn (Nat.mod_lt _ (by omega))]
  congr 1
  rw [Nat.mod_add_mod, show i + n + (N - n) = i + N by omega, Nat.add_mod_right,
    Nat.mod_eq_of_lt hi]

/-- A left rotation undoes the right rotation by the same amount (R115). -/
theorem rotl_rotr {N : Nat} (x : BitVec N) (n : Nat) (hn : n < N) : rotl (rotr x n) n = x := by
  apply BitVec.eq_of_getLsbD_eq
  intro i hi
  rw [getLsbD_rotl _ _ _ hn hi, getLsbD_rotr _ _ _ hn (Nat.mod_lt _ (by omega))]
  congr 1
  rw [Nat.mod_add_mod, show i + (N - n) + n = i + N by omega, Nat.add_mod_right,
    Nat.mod_eq_of_lt hi]

/-- A right rotation is the left rotation by the rest of the width (R115). -/
theorem rotr_eq_rotl {N : Nat} (x : BitVec N) (n : Nat) (hn : n < N) :
    rotr x n = rotl x ((N - n) % N) := by
  apply BitVec.eq_of_getLsbD_eq
  intro i hi
  rw [getLsbD_rotr _ _ _ hn hi, getLsbD_rotl _ _ _ (Nat.mod_lt _ (by omega)) hi]
  congr 1
  obtain rfl | h := Nat.eq_zero_or_pos n
  · simp
  · rw [Nat.mod_eq_of_lt (by omega : N - n < N)]
    congr 1
    omega

/-- A left rotation commutes with XOR (R116). -/
theorem rotl_xor {N : Nat} (x y : BitVec N) (n : Nat) (hn : n < N) :
    rotl (x ^^^ y) n = rotl x n ^^^ rotl y n := by
  apply BitVec.eq_of_getLsbD_eq
  intro i hi
  rw [BitVec.getLsbD_xor, getLsbD_rotl _ _ _ hn hi, getLsbD_rotl _ _ _ hn hi,
    getLsbD_rotl _ _ _ hn hi, BitVec.getLsbD_xor]

/-- Both rotations are bijections (R115). -/
theorem rotl_bijective {N : Nat} (n : Nat) (hn : n < N) :
    Function.Bijective (rotl (N := N) · n) :=
  Function.bijective_iff_has_inverse.mpr ⟨(rotr · n), (rotr_rotl · n hn), (rotl_rotr · n hn)⟩

theorem rotr_bijective {N : Nat} (n : Nat) (hn : n < N) :
    Function.Bijective (rotr (N := N) · n) :=
  Function.bijective_iff_has_inverse.mpr ⟨(rotl · n), (rotl_rotr · n hn), (rotr_rotl · n hn)⟩

/-! ### Substitution -/

/-- `SBOX_INV[SBOX[x]] = x`, the premise of 00_scope.md R6. -/
theorem sboxInv_sbox (tb : Tables) (x : Nibble) : sboxInv tb (tb.sbox x) = x :=
  tb.sbox.symm_apply_apply x

/-- `SBOX[SBOX_INV[y]] = y` (R7). -/
theorem sbox_sboxInv (tb : Tables) (y : Nibble) : tb.sbox (sboxInv tb y) = y :=
  tb.sbox.apply_symm_apply y

/-- Each nibble of `mapNibbles` is the image of the nibble at the same place (R111). -/
theorem nibble_mapNibbles (f : Nibble → Nibble) (w : Word) (j : Nat) (hj : j < 8) :
    nibble (mapNibbles f w) j = f (nibble w j) := by
  apply BitVec.eq_of_getLsbD_eq
  intro i hi
  rw [getLsbD_nibble _ _ _ hi]
  have hj' : j = 0 ∨ j = 1 ∨ j = 2 ∨ j = 3 ∨ j = 4 ∨ j = 5 ∨ j = 6 ∨ j = 7 := by omega
  unfold mapNibbles
  change BitVec.getLsbD (w := 4 + 4 + 4 + 4 + 4 + 4 + 4 + 4) _ _ = _
  obtain rfl | rfl | rfl | rfl | rfl | rfl | rfl | rfl := hj' <;>
    simp only [BitVec.getLsbD_append] <;>
    simp (disch := omega) only [if_pos, if_neg] <;>
    (congr 1; omega)

/-- `mapNibbles` with a function and then with its inverse changes nothing (R115). -/
theorem mapNibbles_mapNibbles (f g : Nibble → Nibble) (hfg : ∀ x, g (f x) = x) (w : Word) :
    mapNibbles g (mapNibbles f w) = w := by
  apply eq_of_nibble_eq (n := 8)
  intro j hj
  rw [nibble_mapNibbles g _ j hj, nibble_mapNibbles f _ j hj, hfg]

/-- `inv_substitute_word` undoes `substitute_word` (R115). -/
theorem invSubstituteWord_substituteWord (tb : Tables) (w : Word) :
    invSubstituteWord tb (substituteWord tb w) = w :=
  mapNibbles_mapNibbles _ _ (sboxInv_sbox tb) w

/-- `substitute_word` undoes `inv_substitute_word` (R115). -/
theorem substituteWord_invSubstituteWord (tb : Tables) (w : Word) :
    substituteWord tb (invSubstituteWord tb w) = w :=
  mapNibbles_mapNibbles _ _ (sbox_sboxInv tb) w

/-- Both substitutions are bijections of the words (R115). -/
theorem substituteWord_bijective (tb : Tables) : Function.Bijective (substituteWord tb) :=
  Function.bijective_iff_has_inverse.mpr ⟨invSubstituteWord tb,
    invSubstituteWord_substituteWord tb, substituteWord_invSubstituteWord tb⟩

theorem invSubstituteWord_bijective (tb : Tables) : Function.Bijective (invSubstituteWord tb) :=
  Function.bijective_iff_has_inverse.mpr ⟨substituteWord tb,
    substituteWord_invSubstituteWord tb, invSubstituteWord_substituteWord tb⟩

end Sys2Proof.Machine
end

