-- ==== Sys2Proof/Laws/KeySchedule.lean ====
section
/-! SUPPORT. The key-update functions, bit by bit, and their inverse laws. -/

namespace Sys2Proof.Machine

/-- The bits of `fold_rc` (41_key_schedule.md R152). -/
theorem getLsbD_foldRc (k : Key) (rc : Byte) (i : Nat) :
    (foldRc k rc).getLsbD i =
      if 59 ≤ i ∧ i < 64 then (k.getLsbD i ^^ rc.getLsbD (i - 59)) else k.getLsbD i := by
  rw [foldRc, getLsbD_replaceField _ _ _ (by omega)]
  split
  · have h1 : i - 59 < 5 := by omega
    have h2 : 59 + (i - 59) = i := by omega
    simp [h1, h2]
  · rfl

/-- Folding a constant twice restores the key (R152, R164). -/
theorem foldRc_foldRc (k : Key) (rc : Byte) : foldRc (foldRc k rc) rc = k := by
  apply BitVec.eq_of_getLsbD_eq
  intro i _
  rw [getLsbD_foldRc, getLsbD_foldRc]
  split <;> simp

/-- Key nibble 1 and the field [63:59] are disjoint, so steps 2 and 3 commute (R150). -/
theorem foldRc_mapNibble (f : Nibble → Nibble) (k : Key) (rc : Byte) :
    foldRc (mapNibble f 1 k) rc = mapNibble f 1 (foldRc k rc) := by
  have hn : nibble (foldRc k rc) 1 = nibble k 1 := by
    apply BitVec.eq_of_getLsbD_eq
    intro i hi
    rw [getLsbD_nibble _ _ _ hi, getLsbD_nibble _ _ _ hi, getLsbD_foldRc, if_neg (by omega)]
  apply BitVec.eq_of_getLsbD_eq
  intro i _
  rw [getLsbD_foldRc, getLsbD_mapNibble _ _ _ (by omega), getLsbD_mapNibble _ _ _ (by omega),
    getLsbD_foldRc, hn]
  split <;> split <;> first | rfl | (exfalso; omega)

/-- `retreat_key` undoes `advance_key`, for every constant (R153). -/
theorem retreatKey_advanceKey (tb : Tables) (k : Key) (rc : Byte) :
    retreatKey tb (advanceKey tb k rc) rc = k := by
  rw [retreatKey, advanceKey, foldRc_foldRc,
    mapNibble_mapNibble _ _ (sboxInv_sbox tb) 1 _ (by omega), rotr_rotl _ _ (by omega)]

/-- `advance_key` undoes `retreat_key`, for every constant (R153). -/
theorem advanceKey_retreatKey (tb : Tables) (k : Key) (rc : Byte) :
    advanceKey tb (retreatKey tb k rc) rc = k := by
  rw [retreatKey, advanceKey, rotl_rotr _ _ (by omega),
    mapNibble_mapNibble _ _ (sbox_sboxInv tb) 1 _ (by omega), foldRc_foldRc]

end Sys2Proof.Machine
end

