-- ==== Sys2Proof/Laws/Round.lean ====
section
/-! SUPPORT. The round and its inverse (42_round.md R182). -/

namespace Sys2Proof.Machine

/-- `inv_round` undoes `round` with the same sub-keys (R182). -/
theorem invRoundFn_roundFn (tb : Tables) (b : Block) (kl kr : Word) :
    invRoundFn tb (roundFn tb b kl kr) kl kr = b := by
  have hr : ∀ x : Word, rotl (rotr x 7) 7 = x := fun x => rotl_rotr x 7 (by omega)
  have hl : ∀ x : Word, rotr (rotl x 3) 3 = x := fun x => rotr_rotl x 3 (by omega)
  have hx : ∀ p q r : Word, p ^^^ q ^^^ r ^^^ r ^^^ q = p := by
    intro p q r; rw [BitVec.xor_assoc _ r r, BitVec.xor_self, BitVec.xor_zero, BitVec.xor_assoc,
      BitVec.xor_self, BitVec.xor_zero]
  have hy : ∀ p q r : Word, p ^^^ q ^^^ r ^^^ p ^^^ r = q := by
    intro p q r; rw [BitVec.xor_assoc p q r, BitVec.xor_comm p, BitVec.xor_assoc _ p p,
      BitVec.xor_self, BitVec.xor_zero, BitVec.xor_assoc, BitVec.xor_self, BitVec.xor_zero]
  obtain ⟨l, r⟩ := b
  simp only [invRoundFn, roundFn, hr, hl, hx, hy, invSubstituteWord_substituteWord]

/-- `round` undoes `inv_round` with the same sub-keys (R182). -/
theorem roundFn_invRoundFn (tb : Tables) (b : Block) (kl kr : Word) :
    roundFn tb (invRoundFn tb b kl kr) kl kr = b := by
  have hl : ∀ x : Word, rotl (rotr x 3) 3 = x := fun x => rotl_rotr x 3 (by omega)
  have hr : ∀ x : Word, rotr (rotl x 7) 7 = x := fun x => rotr_rotl x 7 (by omega)
  have hx : ∀ p q r : Word, p ^^^ (q ^^^ p ^^^ r) ^^^ r = q := by
    intro p q r; rw [BitVec.xor_assoc q p r, ← BitVec.xor_assoc p q, BitVec.xor_comm p q,
      BitVec.xor_assoc q p, ← BitVec.xor_assoc p p r, BitVec.xor_self, BitVec.zero_xor,
      BitVec.xor_assoc, BitVec.xor_self, BitVec.xor_zero]
  have hy : ∀ p q r : Word, p ^^^ q ^^^ r ^^^ r ^^^ q = p := by
    intro p q r; rw [BitVec.xor_assoc _ r r, BitVec.xor_self, BitVec.xor_zero, BitVec.xor_assoc,
      BitVec.xor_self, BitVec.xor_zero]
  have hz : ∀ p q : Word, p ^^^ q ^^^ q = p := by
    intro p q; rw [BitVec.xor_assoc, BitVec.xor_self, BitVec.xor_zero]
  obtain ⟨l, r⟩ := b
  simp only [invRoundFn, roundFn, substituteWord_invSubstituteWord, hx, hl, hz, hr]

end Sys2Proof.Machine
end

