-- ==== Sys2Proof/Laws/Drivers.lean ====
section
/-! SUPPORT. The driver loops (43_drivers.md R200 to R206), each by induction over the loop order. -/

namespace Sys2Proof.Machine

/-- The key after the updates of the given indices in turn (R200). -/
def advanceAll (tb : Tables) : List (Fin 31) → Key → Key
  | [], k => k
  | i :: is, k => advanceAll tb is (advanceKey tb k (tb.rc i))

/-- The inverse rounds of the given indices, LAST index first, with the key states the forward loop
has at each index. -/
def undoLoop (tb : Tables) : List (Fin 31) → Key → Block → Block
  | [], _, b => b
  | i :: is, k, b => invRoundFn tb (undoLoop tb is (advanceKey tb k (tb.rc i)) b) (KL k) (KR k)

/-- The loop over two stretches of indices is the loop over the first, then over the second. -/
theorem encryptLoop_append (tb : Tables) (is js : List (Fin 31)) (k : Key) (b : Block) :
    encryptLoop tb (is ++ js) k b = encryptLoop tb js (advanceAll tb is k) (encryptLoop tb is k b) := by
  induction is generalizing k b with
  | nil => rfl
  | cons i is ih => exact ih _ _

theorem advanceAll_append (tb : Tables) (is js : List (Fin 31)) (k : Key) :
    advanceAll tb (is ++ js) k = advanceAll tb js (advanceAll tb is k) := by
  induction is generalizing k with
  | nil => rfl
  | cons i is ih => exact ih _

theorem decryptLoop_append (tb : Tables) (rkc : Vector Key 31) (is js : List (Fin 31)) (b : Block) :
    decryptLoop tb rkc (is ++ js) b = decryptLoop tb rkc js (decryptLoop tb rkc is b) := by
  induction is generalizing b with
  | nil => rfl
  | cons i is ih => exact ih _

/-- A slot whose index is not in the stretch is left alone by `expandLoop`. -/
theorem expandLoop_get_of_not_mem (tb : Tables) (is : List (Fin 31)) (k : Key) (rkc : Vector Key 31)
    (i : Fin 31) (h : i ∉ is) : (expandLoop tb is k rkc)[i] = rkc[i] := by
  induction is generalizing k rkc with
  | nil => rfl
  | cons j js ih =>
    rw [List.mem_cons, not_or] at h
    rw [expandLoop, ih _ _ h.2]
    exact Vector.getElem_set_ne _ _ (fun e => h.1 (Fin.ext e.symm))

/-- Slot `i` holds the key as it stands when the loop comes to `i` (R202). -/
theorem expandLoop_get (tb : Tables) (is js : List (Fin 31)) (i : Fin 31) (k : Key)
    (rkc : Vector Key 31) (hi : i ∉ is) (hj : i ∉ js) :
    (expandLoop tb (is ++ i :: js) k rkc)[i] = advanceAll tb is k := by
  induction is generalizing k rkc with
  | nil =>
    rw [List.nil_append, expandLoop, expandLoop_get_of_not_mem tb js _ _ i hj]
    exact Vector.getElem_set_self _
  | cons j is ih => exact ih _ _ (fun h => hi (List.mem_cons_of_mem _ h))

/-- The loop order up to an index, that index, and the rest. -/
theorem roundIndices_split (i : Fin 31) :
    ∃ js, roundIndices = roundIndices.take i.val ++ i :: js ∧
      i ∉ roundIndices.take i.val ∧ i ∉ js := by
  refine ⟨roundIndices.drop (i.val + 1), ?_, ?_, ?_⟩ <;> revert i <;> decide

/-- `expand_keys` records in slot `i` the key after `i` updates, that is `K_i` (R200, R202). -/
theorem expandKeys_get (tb : Tables) (key : Key) (i : Fin 31) :
    (expandKeys tb key)[i] = advanceAll tb (roundIndices.take i.val) key := by
  obtain ⟨js, h, hi, hj⟩ := roundIndices_split i
  have := expandLoop_get tb _ js i key (Vector.replicate 31 0) hi hj
  rwa [← h] at this

/-- Phase 2 over a cache that holds the loop's key states undoes the loop. -/
theorem decryptLoop_reverse (tb : Tables) (rkc : Vector Key 31) (is : List (Fin 31)) (k : Key)
    (b : Block) (hc : ∀ js i ks, is = js ++ i :: ks → rkc[i] = advanceAll tb js k) :
    decryptLoop tb rkc is.reverse b = undoLoop tb is k b := by
  induction is generalizing k with
  | nil => rfl
  | cons i is ih =>
    have h0 : rkc[i] = k := hc [] i is rfl
    rw [List.reverse_cons, decryptLoop_append, ih (advanceKey tb k (tb.rc i))
      (fun js i' ks e => hc (i :: js) i' ks (by rw [e]; rfl))]
    simp only [decryptLoop, undoLoop, h0]

theorem take_of_append (is js ks : List (Fin 31)) (i : Fin 31) (h : is = js ++ i :: ks) :
    is.take js.length = js := by rw [h, List.take_left]

/-- The index at place `n` of the loop order is `n`. -/
theorem roundIndices_place (js ks : List (Fin 31)) (i : Fin 31)
    (h : roundIndices = js ++ i :: ks) : js.length = i.val := by
  have h1 : roundIndices[js.length]? = some i := by rw [h]; simp
  rw [roundIndices, List.getElem?_eq_some_iff] at h1
  obtain ⟨hlt, h2⟩ := h1
  rw [List.getElem_finRange] at h2
  exact congrArg Fin.val h2

/-- `decrypt` is the inverse rounds with the key states of the forward loop (R203). -/
theorem decrypt_eq_undoLoop (tb : Tables) (key : Key) (b : Block) :
    decrypt tb key b = undoLoop tb roundIndices key b := by
  apply decryptLoop_reverse
  intro js i ks h
  rw [expandKeys_get, ← roundIndices_place js ks i h, take_of_append _ js ks i h]

/-- The inverse loop undoes the forward loop (R204). -/
theorem undoLoop_encryptLoop (tb : Tables) (is : List (Fin 31)) (k : Key) (b : Block) :
    undoLoop tb is k (encryptLoop tb is k b) = b := by
  induction is generalizing k b with
  | nil => rfl
  | cons i is ih => rw [encryptLoop, undoLoop, ih, invRoundFn_roundFn]

/-- The forward loop undoes the inverse loop (R204). -/
theorem encryptLoop_undoLoop (tb : Tables) (is : List (Fin 31)) (k : Key) (b : Block) :
    encryptLoop tb is k (undoLoop tb is k b) = b := by
  induction is generalizing k with
  | nil => rfl
  | cons i is ih => rw [undoLoop, encryptLoop, roundFn_invRoundFn, ih]

end Sys2Proof.Machine
end

