-- ==== Sys2Proof/Laws/State.lean ====
section
/-! SUPPORT. What each named update does to each field of the state, so that no later proof unfolds a record
update. -/

namespace Sys2Proof.Machine

variable (s : State)

/-! ### `setReg` -/

@[simp] theorem State.setReg_k (rd : WordReg) (v : Word) : (s.setReg rd v).k = s.k := by cases rd <;> rfl
@[simp] theorem State.setReg_rkc (rd : WordReg) (v : Word) : (s.setReg rd v).rkc = s.rkc := by cases rd <;> rfl
@[simp] theorem State.setReg_err (rd : WordReg) (v : Word) : (s.setReg rd v).err = s.err := by cases rd <;> rfl
@[simp] theorem State.setReg_rkv (rd : WordReg) (v : Word) : (s.setReg rd v).rkv = s.rkv := by cases rd <;> rfl
@[simp] theorem State.setReg_ecause (rd : WordReg) (v : Word) : (s.setReg rd v).ecause = s.ecause := by cases rd <;> rfl
@[simp] theorem State.setReg_host (rd : WordReg) (v : Word) : (s.setReg rd v).host = s.host := by cases rd <;> rfl
@[simp] theorem State.setReg_replies (rd : WordReg) (v : Word) : (s.setReg rd v).replies = s.replies := by cases rd <;> rfl
@[simp] theorem State.setReg_resets (rd : WordReg) (v : Word) : (s.setReg rd v).resets = s.resets := by cases rd <;> rfl

/-! ### `setBlock` -/

@[simp] theorem State.setBlock_l (b : Block) : (s.setBlock b).l = b.1 := rfl
@[simp] theorem State.setBlock_r (b : Block) : (s.setBlock b).r = b.2 := rfl
@[simp] theorem State.setBlock_t (b : Block) : (s.setBlock b).t = s.t := rfl
@[simp] theorem State.setBlock_k (b : Block) : (s.setBlock b).k = s.k := rfl
@[simp] theorem State.setBlock_rkc (b : Block) : (s.setBlock b).rkc = s.rkc := rfl
@[simp] theorem State.setBlock_err (b : Block) : (s.setBlock b).err = s.err := rfl
@[simp] theorem State.setBlock_rkv (b : Block) : (s.setBlock b).rkv = s.rkv := rfl
@[simp] theorem State.setBlock_ecause (b : Block) : (s.setBlock b).ecause = s.ecause := rfl
@[simp] theorem State.setBlock_host (b : Block) : (s.setBlock b).host = s.host := rfl
@[simp] theorem State.setBlock_replies (b : Block) : (s.setBlock b).replies = s.replies := rfl
@[simp] theorem State.setBlock_resets (b : Block) : (s.setBlock b).resets = s.resets := rfl

/-! ### `setKey` -/

@[simp] theorem State.setKey_l (k : Key) : (s.setKey k).l = s.l := rfl
@[simp] theorem State.setKey_r (k : Key) : (s.setKey k).r = s.r := rfl
@[simp] theorem State.setKey_t (k : Key) : (s.setKey k).t = s.t := rfl
@[simp] theorem State.setKey_k (k : Key) : (s.setKey k).k = k := rfl
@[simp] theorem State.setKey_rkc (k : Key) : (s.setKey k).rkc = s.rkc := rfl
@[simp] theorem State.setKey_err (k : Key) : (s.setKey k).err = s.err := rfl
@[simp] theorem State.setKey_rkv (k : Key) : (s.setKey k).rkv = s.rkv := rfl
@[simp] theorem State.setKey_ecause (k : Key) : (s.setKey k).ecause = s.ecause := rfl
@[simp] theorem State.setKey_host (k : Key) : (s.setKey k).host = s.host := rfl
@[simp] theorem State.setKey_replies (k : Key) : (s.setKey k).replies = s.replies := rfl
@[simp] theorem State.setKey_resets (k : Key) : (s.setKey k).resets = s.resets := rfl

/-! ### `setCache` -/

@[simp] theorem State.setCache_l (c : Vector Key 31) : (s.setCache c).l = s.l := rfl
@[simp] theorem State.setCache_r (c : Vector Key 31) : (s.setCache c).r = s.r := rfl
@[simp] theorem State.setCache_t (c : Vector Key 31) : (s.setCache c).t = s.t := rfl
@[simp] theorem State.setCache_k (c : Vector Key 31) : (s.setCache c).k = s.k := rfl
@[simp] theorem State.setCache_rkc (c : Vector Key 31) : (s.setCache c).rkc = c := rfl
@[simp] theorem State.setCache_err (c : Vector Key 31) : (s.setCache c).err = s.err := rfl
@[simp] theorem State.setCache_rkv (c : Vector Key 31) : (s.setCache c).rkv = true := rfl
@[simp] theorem State.setCache_ecause (c : Vector Key 31) : (s.setCache c).ecause = s.ecause := rfl
@[simp] theorem State.setCache_host (c : Vector Key 31) : (s.setCache c).host = s.host := rfl
@[simp] theorem State.setCache_replies (c : Vector Key 31) : (s.setCache c).replies = s.replies := rfl
@[simp] theorem State.setCache_resets (c : Vector Key 31) : (s.setCache c).resets = s.resets := rfl

/-! ### `setHost` -/

@[simp] theorem State.setHost_l (es : List HostEvent) : (s.setHost es).l = s.l := rfl
@[simp] theorem State.setHost_r (es : List HostEvent) : (s.setHost es).r = s.r := rfl
@[simp] theorem State.setHost_t (es : List HostEvent) : (s.setHost es).t = s.t := rfl
@[simp] theorem State.setHost_k (es : List HostEvent) : (s.setHost es).k = s.k := rfl
@[simp] theorem State.setHost_rkc (es : List HostEvent) : (s.setHost es).rkc = s.rkc := rfl
@[simp] theorem State.setHost_err (es : List HostEvent) : (s.setHost es).err = s.err := rfl
@[simp] theorem State.setHost_rkv (es : List HostEvent) : (s.setHost es).rkv = s.rkv := rfl
@[simp] theorem State.setHost_ecause (es : List HostEvent) : (s.setHost es).ecause = s.ecause := rfl
@[simp] theorem State.setHost_host (es : List HostEvent) : (s.setHost es).host = es := rfl
@[simp] theorem State.setHost_replies (es : List HostEvent) : (s.setHost es).replies = s.replies := rfl
@[simp] theorem State.setHost_resets (es : List HostEvent) : (s.setHost es).resets = s.resets := rfl

/-! ### `reply` -/

@[simp] theorem State.reply_l (v : Word) : (s.reply v).l = s.l := rfl
@[simp] theorem State.reply_r (v : Word) : (s.reply v).r = s.r := rfl
@[simp] theorem State.reply_t (v : Word) : (s.reply v).t = s.t := rfl
@[simp] theorem State.reply_k (v : Word) : (s.reply v).k = s.k := rfl
@[simp] theorem State.reply_rkc (v : Word) : (s.reply v).rkc = s.rkc := rfl
@[simp] theorem State.reply_err (v : Word) : (s.reply v).err = s.err := rfl
@[simp] theorem State.reply_rkv (v : Word) : (s.reply v).rkv = s.rkv := rfl
@[simp] theorem State.reply_ecause (v : Word) : (s.reply v).ecause = s.ecause := rfl
@[simp] theorem State.reply_host (v : Word) : (s.reply v).host = s.host := rfl
@[simp] theorem State.reply_replies (v : Word) : (s.reply v).replies = s.replies ++ [v] := rfl
@[simp] theorem State.reply_resets (v : Word) : (s.reply v).resets = s.resets := rfl

/-! ### `raiseCmdError` -/

@[simp] theorem State.raiseCmdError_l (c : ErrCause) : (s.raiseCmdError c).l = s.l := rfl
@[simp] theorem State.raiseCmdError_r (c : ErrCause) : (s.raiseCmdError c).r = s.r := rfl
@[simp] theorem State.raiseCmdError_t (c : ErrCause) : (s.raiseCmdError c).t = s.t := rfl
@[simp] theorem State.raiseCmdError_k (c : ErrCause) : (s.raiseCmdError c).k = s.k := rfl
@[simp] theorem State.raiseCmdError_rkc (c : ErrCause) : (s.raiseCmdError c).rkc = s.rkc := rfl
@[simp] theorem State.raiseCmdError_err (c : ErrCause) : (s.raiseCmdError c).err = true := rfl
@[simp] theorem State.raiseCmdError_rkv (c : ErrCause) : (s.raiseCmdError c).rkv = s.rkv := rfl
@[simp] theorem State.raiseCmdError_ecause (c : ErrCause) : (s.raiseCmdError c).ecause = c.code := rfl
@[simp] theorem State.raiseCmdError_host (c : ErrCause) : (s.raiseCmdError c).host = s.host := rfl
@[simp] theorem State.raiseCmdError_replies (c : ErrCause) : (s.raiseCmdError c).replies = s.replies := rfl
@[simp] theorem State.raiseCmdError_resets (c : ErrCause) : (s.raiseCmdError c).resets = s.resets := rfl

/-! ### `takeReset` -/

@[simp] theorem State.takeReset_err : (s.takeReset).err = false := rfl
@[simp] theorem State.takeReset_rkv : (s.takeReset).rkv = false := rfl
@[simp] theorem State.takeReset_ecause : (s.takeReset).ecause = 0 := rfl
@[simp] theorem State.takeReset_host : (s.takeReset).host = s.host := rfl
@[simp] theorem State.takeReset_replies : (s.takeReset).replies = s.replies := rfl
@[simp] theorem State.takeReset_resets : (s.takeReset).resets = s.resets + 1 := rfl

/-! ### The register file -/

@[simp] theorem State.reg_l : s.reg .l = s.l := rfl
@[simp] theorem State.reg_r : s.reg .r = s.r := rfl
@[simp] theorem State.reg_t : s.reg .t = s.t := rfl

/-- The register just written. -/
@[simp] theorem State.reg_setReg_self (rd : WordReg) (v : Word) : (s.setReg rd v).reg rd = v := by
  cases rd <;> rfl

/-- Every other register. -/
theorem State.reg_setReg_other (rd x : WordReg) (v : Word) (h : x ≠ rd) :
    (s.setReg rd v).reg x = s.reg x := by
  cases rd <;> cases x <;> first | rfl | exact absurd rfl h

@[simp] theorem State.reg_setKey (k : Key) (x : WordReg) : (s.setKey k).reg x = s.reg x := by
  cases x <;> rfl
@[simp] theorem State.reg_setCache (c : Vector Key 31) (x : WordReg) :
    (s.setCache c).reg x = s.reg x := by cases x <;> rfl
@[simp] theorem State.reg_setHost (es : List HostEvent) (x : WordReg) :
    (s.setHost es).reg x = s.reg x := by cases x <;> rfl
@[simp] theorem State.reg_reply (v : Word) (x : WordReg) : (s.reply v).reg x = s.reg x := by
  cases x <;> rfl
@[simp] theorem State.reg_raiseCmdError (c : ErrCause) (x : WordReg) :
    (s.raiseCmdError c).reg x = s.reg x := by cases x <;> rfl

/-- Writing a register with its own value changes nothing. -/
theorem State.setReg_reg (rd : WordReg) : s.setReg rd (s.reg rd) = s := by cases rd <;> rfl

/-- A second write of the same register replaces the first. -/
theorem State.setReg_setReg (rd : WordReg) (v v' : Word) :
    (s.setReg rd v).setReg rd v' = s.setReg rd v' := by cases rd <;> rfl

/-- Two states with equal registers, key, cache, status and host side are equal. -/
theorem State.ext_parts {s t : State} (hreg : ∀ x, t.reg x = s.reg x) (hk : t.k = s.k)
    (hrkc : t.rkc = s.rkc) (herr : t.err = s.err) (hrkv : t.rkv = s.rkv)
    (hec : t.ecause = s.ecause) (hh : t.host = s.host) (hr : t.replies = s.replies)
    (hn : t.resets = s.resets) : t = s := by
  have h1 := hreg .l
  have h2 := hreg .r
  have h3 := hreg .t
  cases s
  cases t
  simp_all

end Sys2Proof.Machine
end

