-- ==== Sys2Proof/Laws/Ops.lean ====
section
/-! SUPPORT. What the shared operations of Ops.lean, Operands.lean and HostPort.lean do, each once. -/

namespace Sys2Proof.Machine

/-! ### The immediate -/

/-- Within its range the command has its effect (30_encoding.md R83). -/
theorem withImm_of_lt {bound n : Nat} (h : n < bound) (s : State) (f : Fin bound → State) :
    withImm bound n s f = .next (f ⟨n, h⟩) := dif_pos h

/-- Above it the command raises `CmdError(2)` and does nothing else (R83). -/
theorem withImm_of_not_lt {bound n : Nat} (h : ¬ n < bound) (s : State) (f : Fin bound → State) :
    withImm bound n s f = .next (s.raiseCmdError .reservedField) := dif_neg h

/-- `withImm` says once all it can do. -/
theorem withImm_cases (bound n : Nat) (s : State) (f : Fin bound → State) :
    (∃ h : n < bound, withImm bound n s f = .next (f ⟨n, h⟩)) ∨
    (¬ n < bound ∧ withImm bound n s f = .next (s.raiseCmdError .reservedField)) := by
  by_cases h : n < bound
  · exact .inl ⟨h, withImm_of_lt h s f⟩
  · exact .inr ⟨h, withImm_of_not_lt h s f⟩

/-! ### The register window -/

/-- The register map, row by row (20_memory.md R51). -/
theorem ofIndex_table :
    (List.finRange 16).map HostReg.ofIndex =
      [.cmd, .status, .word .l, .word .r, .word .t, .reserved, .reserved, .reserved,
       .key 0, .key 1, .key 2, .key 3, .reserved, .reserved, .reserved, .reserved] := by decide

/-- All a data write can do (R53). -/
theorem dataWrite_cases (s : State) (a : Fin 16) (v : Word) :
    s.dataWrite a v = s ∨
    (∃ x, HostReg.ofIndex a = .word x ∧ s.dataWrite a v = s.setReg x v) ∨
    (∃ q, HostReg.ofIndex a = .key q ∧ s.dataWrite a v = s.setKey (setKeyWord s.k q v)) := by
  unfold State.dataWrite
  split
  · exact .inl rfl
  · exact .inl rfl
  · exact .inl rfl
  · rename_i x h; exact .inr (.inl ⟨x, h, rfl⟩)
  · rename_i q h; exact .inr (.inr ⟨q, h, rfl⟩)

/-- All a write to CMD can do (R53, 30_encoding.md R85). -/
theorem commandWrite_cases (ex : Instr → State → Host.Outcome State Fault Refusal) (w : Word)
    (s : State) :
    (s.err = true ∧ commandWrite ex w s = .next s) ∨
    (s.err = false ∧ ∃ i, decode w = .ok i ∧ commandWrite ex w s = ex i s) ∨
    (s.err = false ∧ ∃ e, decode w = .error e ∧
      commandWrite ex w s = .next (s.raiseCmdError (causeOfDecodeError e))) := by
  unfold commandWrite
  cases he : s.err with
  | true => exact .inl ⟨rfl, by simp⟩
  | false =>
    cases hd : decode w with
    | ok i => exact .inr (.inl ⟨rfl, i, rfl, by simp⟩)
    | error e => exact .inr (.inr ⟨rfl, e, rfl, by simp⟩)

/-- All a host write can do (R53). -/
theorem regWrite_cases (ex : Instr → State → Host.Outcome State Fault Refusal) (a : Fin 16)
    (v : Word) (s : State) :
    (a = 0 ∧ regWrite ex a v s = commandWrite ex v s) ∨
    (a ≠ 0 ∧ regWrite ex a v s = .next (s.dataWrite a v)) := by
  by_cases h : a = 0
  · subst h; exact .inl ⟨rfl, rfl⟩
  · refine .inr ⟨h, ?_⟩
    have hc : HostReg.ofIndex a ≠ .cmd := by revert a; decide
    unfold regWrite
    split
    · exact absurd ‹_› hc
    all_goals rfl

end Sys2Proof.Machine
end

