-- ==== Sys2Proof/Laws/Exec.lean ====
section
/-! SUPPORT. Inversion: all a command, and all a step, can do, said once. -/

namespace Sys2Proof.Machine

/-! ### The machine over given tables -/

/-- `exec` is `execWith` at the engine's own tables (00_scope.md R6). -/
theorem exec_eq_execWith (i : Instr) (s : State) : exec i s = execWith Config.tables i s := by
  cases i <;> rfl

/-- `step` is `stepWith` at the engine's own tables (R6). -/
theorem step_eq_stepWith (s : State) : step s = stepWith Config.tables s :=
  congrArg (stepOver · s) (funext fun i => funext fun s => exec_eq_execWith i s)

/-! ### The commands with an immediate, as `withImm` at the engine's own tables -/

theorem exec_rol (rd : WordReg) (n : Nat) (s : State) : exec (.rol rd n) s =
    withImm 32 n s fun n => s.setReg rd (rotl (s.reg rd) n) := rfl

theorem exec_ror (rd : WordReg) (n : Nat) (s : State) : exec (.ror rd n) s =
    withImm 32 n s fun n => s.setReg rd (rotr (s.reg rd) n) := rfl

theorem exec_sbn (rd : WordReg) (j : Nat) (s : State) : exec (.sbn rd j) s =
    withImm 8 j s fun j => s.setReg rd (mapNibble Config.tables.sbox j (s.reg rd)) := rfl

theorem exec_isbn (rd : WordReg) (j : Nat) (s : State) : exec (.isbn rd j) s =
    withImm 8 j s fun j => s.setReg rd (mapNibble (sboxInv Config.tables) j (s.reg rd)) := rfl

theorem exec_krol (n : Nat) (s : State) : exec (.krol n) s =
    withImm 128 n s fun n => s.setKey (rotl s.k n) := rfl

theorem exec_kror (n : Nat) (s : State) : exec (.kror n) s =
    withImm 128 n s fun n => s.setKey (rotr s.k n) := rfl

theorem exec_ksbn (j : Nat) (s : State) : exec (.ksbn j) s =
    withImm 32 j s fun j => s.setKey (mapNibble Config.tables.sbox j s.k) := rfl

theorem exec_kisbn (j : Nat) (s : State) : exec (.kisbn j) s =
    withImm 32 j s fun j => s.setKey (mapNibble (sboxInv Config.tables) j s.k) := rfl

theorem exec_kxrc (i : Nat) (s : State) : exec (.kxrc i) s =
    withImm 31 i s fun i => s.setKey (foldRc s.k (Config.tables.rc i)) := rfl

theorem exec_advk (i : Nat) (s : State) : exec (.advk i) s =
    withImm 31 i s fun i => s.setKey (advanceKey Config.tables s.k (Config.tables.rc i)) := rfl

theorem exec_retk (i : Nat) (s : State) : exec (.retk i) s =
    withImm 31 i s fun i => s.setKey (retreatKey Config.tables s.k (Config.tables.rc i)) := rfl

theorem exec_ldrk (i : Nat) (s : State) : exec (.ldrk i) s =
    withImm 31 i s fun i => if s.rkv then s.setKey s.rkc[i] else s.raiseCmdError .keysNotValid := rfl

/-! ### The drivers, over the pure functions of 43_drivers.md R201 to R203 -/

theorem exec_enc (s : State) :
    exec .enc s = .next (s.setBlock (encrypt Config.tables s.k (s.l, s.r))) := rfl

theorem exec_kexp (s : State) :
    exec .kexp s = .next (s.setCache (expandKeys Config.tables s.k)) := by
  simp only [exec, execKexp, kexpWith]

theorem exec_dec (s : State) :
    exec .dec s = .next ((s.setCache (expandKeys Config.tables s.k)).setBlock
      (decrypt Config.tables s.k (s.l, s.r))) := by
  simp only [exec, execDec, decWith, decrypt, State.setCache_rkc, State.setCache_l, State.setCache_r]

/-! ### One command -/

/-- The parts of the state a command may write, by command, and with what. -/
inductive Effect (i : Instr) (s : State) : State → Prop where
  /-- A word command writes its destination (40_word_primitives.md R118). -/
  | word (rd : WordReg) (v : Word) : Effect i s (s.setReg rd v)
  /-- ROUND, IROUND and ENC write L and R. -/
  | block (b : Block) : Effect i s (s.setBlock b)
  /-- A key command, and LDRK with `RKV = 1`, writes K. -/
  | key (k : Key) : Effect i s (s.setKey k)
  /-- KEXP writes RKC and RKV. -/
  | cache : Effect i s (s.setCache (expandKeys Config.tables s.k))
  /-- DEC writes RKC, RKV, L and R. -/
  | cacheBlock (b : Block) : Effect i s ((s.setCache (expandKeys Config.tables s.k)).setBlock b)
  /-- An immediate above its range. -/
  | badField (h : ¬ i.WellFormed) : Effect i s (s.raiseCmdError .reservedField)
  /-- LDRK with `RKV = 0`. -/
  | notValid (n : Nat) (hi : i = .ldrk n) (h : s.rkv = false) :
      Effect i s (s.raiseCmdError .keysNotValid)

/-- What `withImm` does, as an effect: the shape every command with an immediate has. -/
theorem withImm_effect {bound n : Nat} {i : Instr} {s : State} {f : Fin bound → State}
    (hf : ∀ k, Effect i s (f k)) (hwf : i.WellFormed → n < bound) :
    ∃ t, withImm bound n s f = .next t ∧ Effect i s t := by
  obtain ⟨h, e⟩ | ⟨h, e⟩ := withImm_cases bound n s f
  · exact ⟨_, e, hf _⟩
  · exact ⟨_, e, .badField fun h' => h (hwf h')⟩

/-- Every command answers a next state, and that state differs from the old one as `Effect` says. -/
theorem exec_effect (i : Instr) (s : State) : ∃ t, exec i s = .next t ∧ Effect i s t := by
  cases i with
  | mov rd rs => exact ⟨_, rfl, .word ..⟩
  | xor rd rs => exact ⟨_, rfl, .word ..⟩
  | rol rd n =>
    unfold exec execRol
    exact withImm_effect (fun _ => .word ..) (Nat.lt_succ_of_le ·)
  | ror rd n =>
    unfold exec execRor
    exact withImm_effect (fun _ => .word ..) (Nat.lt_succ_of_le ·)
  | sbn rd j =>
    unfold exec execSbn sbnWith
    exact withImm_effect (fun _ => .word ..) (Nat.lt_succ_of_le ·)
  | isbn rd j =>
    unfold exec execIsbn isbnWith
    exact withImm_effect (fun _ => .word ..) (Nat.lt_succ_of_le ·)
  | sbw rd => exact ⟨_, rfl, .word ..⟩
  | isbw rd => exact ⟨_, rfl, .word ..⟩
  | gkl rd => exact ⟨_, rfl, .word ..⟩
  | gkr rd => exact ⟨_, rfl, .word ..⟩
  | krol n =>
    unfold exec execKrol
    exact withImm_effect (fun _ => .key _) (Nat.lt_succ_of_le ·)
  | kror n =>
    unfold exec execKror
    exact withImm_effect (fun _ => .key _) (Nat.lt_succ_of_le ·)
  | ksbn j =>
    unfold exec execKsbn ksbnWith
    exact withImm_effect (fun _ => .key _) (Nat.lt_succ_of_le ·)
  | kisbn j =>
    unfold exec execKisbn kisbnWith
    exact withImm_effect (fun _ => .key _) (Nat.lt_succ_of_le ·)
  | kxrc k =>
    unfold exec execKxrc kxrcWith
    exact withImm_effect (fun _ => .key _) (Nat.lt_succ_of_le ·)
  | advk k =>
    unfold exec execAdvk advkWith
    exact withImm_effect (fun _ => .key _) (Nat.lt_succ_of_le ·)
  | retk k =>
    unfold exec execRetk retkWith
    exact withImm_effect (fun _ => .key _) (Nat.lt_succ_of_le ·)
  | round => exact ⟨_, rfl, .block _⟩
  | iround => exact ⟨_, rfl, .block _⟩
  | kexp => exact ⟨_, rfl, .cache⟩
  | ldrk k =>
    unfold exec execLdrk
    refine withImm_effect (fun j => ?_) (Nat.lt_succ_of_le ·)
    split
    · exact .key _
    · rename_i h
      exact .notValid k rfl (Bool.eq_false_iff.mpr h)
  | enc => exact ⟨_, rfl, .block _⟩
  | dec => exact ⟨_, rfl, .cacheBlock _⟩

/-! ### One step -/

/-- All a step can do (20_memory.md R50 to R53, 30_encoding.md R85, 60_exceptions.md R234). -/
inductive StepEffect (s : State) : State → Prop where
  /-- Nothing to come: the state is held. -/
  | idle (h : s.host = []) : StepEffect s s
  /-- A read. -/
  | read (a : Fin 16) (es) (h : s.host = .read a :: es) :
      StepEffect s ((s.setHost es).reply (s.regRead a))
  /-- A write to any index but CMD. -/
  | data (a : Fin 16) (v es) (h : s.host = .write a v :: es) (ha : a ≠ 0) :
      StepEffect s ((s.setHost es).dataWrite a v)
  /-- A write to CMD while faulted. -/
  | ignored (w es) (h : s.host = .write 0 w :: es) (he : s.err = true) :
      StepEffect s (s.setHost es)
  /-- A word that is no command. -/
  | badWord (w es e) (h : s.host = .write 0 w :: es) (he : s.err = false)
      (hd : decode w = .error e) : StepEffect s ((s.setHost es).raiseCmdError (causeOfDecodeError e))
  /-- A command. -/
  | command (w es i t) (h : s.host = .write 0 w :: es) (he : s.err = false)
      (hd : decode w = .ok i) (hx : exec i (s.setHost es) = .next t) : StepEffect s t
  /-- A reset. -/
  | reset (es) (h : s.host = .reset :: es) : StepEffect s (s.setHost es).takeReset

/-- Every step answers a next state, as `StepEffect` says: nothing stops the machine. -/
theorem step_effect (s : State) : ∃ t, step s = .next t ∧ StepEffect s t := by
  unfold step stepOver
  cases h : s.host with
  | nil => exact ⟨s, rfl, .idle h⟩
  | cons e es =>
    cases e with
    | read a => exact ⟨_, rfl, .read a es h⟩
    | reset => exact ⟨_, rfl, .reset es h⟩
    | write a v =>
      simp only [takeEvent]
      obtain ⟨ha, hw⟩ | ⟨ha, hw⟩ := regWrite_cases exec a v (s.setHost es)
      · subst ha
        rw [hw]
        obtain ⟨he, hc⟩ | ⟨he, i, hd, hc⟩ | ⟨he, e, hd, hc⟩ := commandWrite_cases exec v (s.setHost es)
        · exact ⟨_, hc, .ignored v es h he⟩
        · obtain ⟨t, ht, _⟩ := exec_effect i (s.setHost es)
          exact ⟨t, hc.trans ht, .command v es i t h he hd ht⟩
        · exact ⟨_, hc, .badWord v es e h he hd⟩
      · exact ⟨_, hw, .data a v es h ha⟩

/-- The inversion lemma of `step`. -/
theorem StepEffect.of_step {s t : State} (h : step s = .next t) : StepEffect s t := by
  obtain ⟨t', h', he⟩ := step_effect s
  rw [h] at h'
  cases h'
  exact he

end Sys2Proof.Machine
end

