-- ==== Sys2Proof/Laws/PerInstr.lean ====
section
/-! SUPPORT. One lemma per constructor: the encoding of a well-formed command selects the command's own
row of spec/opcode_table.json, that is `w AND mask == match` (30_encoding.md R86). -/

namespace Sys2Proof.Laws.EncodeRow

/-- The `mask` column of spec/opcode_table.json. -/
def rowMask : Instr → Word
  | .mov _ _ | .xor _ _ => 0xFFFFF0FF#32
  | .rol _ _ | .ror _ _ => 0xFFE0FCFF#32
  | .sbn _ _ | .isbn _ _ => 0xFFF8FCFF#32
  | .sbw _ | .isbw _ | .gkl _ | .gkr _ => 0xFFFFFCFF#32
  | .krol _ | .kror _ => 0xFF80FFFF#32
  | .ksbn _ | .kisbn _ | .kxrc _ | .advk _ | .retk _ | .ldrk _ => 0xFFE0FFFF#32
  | .round | .iround | .kexp | .enc | .dec => 0xFFFFFFFF#32

/-- The `match` column of spec/opcode_table.json. -/
def rowMatch : Instr → Word
  | .mov _ _ => 0x00000001#32
  | .xor _ _ => 0x00000002#32
  | .rol _ _ => 0x00000003#32
  | .ror _ _ => 0x00000004#32
  | .sbn _ _ => 0x00000005#32
  | .isbn _ _ => 0x00000006#32
  | .sbw _ => 0x00000007#32
  | .isbw _ => 0x00000008#32
  | .gkl _ => 0x00000009#32
  | .gkr _ => 0x0000000A#32
  | .krol _ => 0x00000010#32
  | .kror _ => 0x00000011#32
  | .ksbn _ => 0x00000012#32
  | .kisbn _ => 0x00000013#32
  | .kxrc _ => 0x00000014#32
  | .advk _ => 0x00000018#32
  | .retk _ => 0x00000019#32
  | .round => 0x00000020#32
  | .iround => 0x00000021#32
  | .kexp => 0x00000028#32
  | .ldrk _ => 0x00000029#32
  | .enc => 0x00000030#32
  | .dec => 0x00000031#32

/-- The command's word selects the command's row. -/
def Statement (i : Instr) : Prop := i.WellFormed → encode i &&& rowMask i = rowMatch i

/-- A statement about a bounded immediate is one about each value of it. -/
theorem forall_le {p : Nat → Prop} (hi : Nat) (h : ∀ n : Fin (hi + 1), p n.val) (n : Nat)
    (hn : n ≤ hi) : p n := h ⟨n, Nat.lt_succ_of_le hn⟩

theorem mov (rd rs : WordReg) : Statement (.mov rd rs) := by
  intro _; cases rd <;> cases rs <;> decide
theorem xor (rd rs : WordReg) : Statement (.xor rd rs) := by
  intro _; cases rd <;> cases rs <;> decide
theorem rol (rd : WordReg) (n : Nat) : Statement (.rol rd n) := by
  revert n; cases rd <;> exact forall_le 31 (by decide)
theorem ror (rd : WordReg) (n : Nat) : Statement (.ror rd n) := by
  revert n; cases rd <;> exact forall_le 31 (by decide)
theorem sbn (rd : WordReg) (j : Nat) : Statement (.sbn rd j) := by
  revert j; cases rd <;> exact forall_le 7 (by decide)
theorem isbn (rd : WordReg) (j : Nat) : Statement (.isbn rd j) := by
  revert j; cases rd <;> exact forall_le 7 (by decide)
theorem sbw (rd : WordReg) : Statement (.sbw rd) := by intro _; cases rd <;> decide
theorem isbw (rd : WordReg) : Statement (.isbw rd) := by intro _; cases rd <;> decide
theorem gkl (rd : WordReg) : Statement (.gkl rd) := by intro _; cases rd <;> decide
theorem gkr (rd : WordReg) : Statement (.gkr rd) := by intro _; cases rd <;> decide
theorem krol (n : Nat) : Statement (.krol n) := by
  revert n; exact forall_le 127 (by decide)
theorem kror (n : Nat) : Statement (.kror n) := by
  revert n; exact forall_le 127 (by decide)
theorem ksbn (j : Nat) : Statement (.ksbn j) := by
  revert j; exact forall_le 31 (by decide)
theorem kisbn (j : Nat) : Statement (.kisbn j) := by
  revert j; exact forall_le 31 (by decide)
theorem kxrc (i : Nat) : Statement (.kxrc i) := by
  revert i; exact forall_le 30 (by decide)
theorem advk (i : Nat) : Statement (.advk i) := by
  revert i; exact forall_le 30 (by decide)
theorem retk (i : Nat) : Statement (.retk i) := by
  revert i; exact forall_le 30 (by decide)
theorem round : Statement .round := by intro _; decide
theorem iround : Statement .iround := by intro _; decide
theorem kexp : Statement .kexp := by intro _; decide
theorem ldrk (i : Nat) : Statement (.ldrk i) := by
  revert i; exact forall_le 30 (by decide)
theorem enc : Statement .enc := by intro _; decide
theorem dec : Statement .dec := by intro _; decide

end Sys2Proof.Laws.EncodeRow
end

