-- ==== Sys2Proof/Tests/Slice0.lean ====
section
/-! SUPPORT. The model's own tests: the checks of WellFormed, one written-out word per command, one-step
vectors, and for every obligation with hypotheses a state and operands that meet them. Expected values
are those of 95_test_vectors.md (V10 to V63), the register map of 20_memory.md R51 and the examples of
the command rules; none is the model's own answer. -/

namespace Sys2Proof.Tests

open Sys2Proof Sys2Proof.Machine Sys2Proof.Claims

/-! ### The checks of WellFormed (R83) -/

theorem test_wf_refuses_rol : ¬ Instr.WellFormed (.rol .l 32) := by decide
theorem test_wf_refuses_ror : ¬ Instr.WellFormed (.ror .t 32) := by decide
theorem test_wf_refuses_sbn : ¬ Instr.WellFormed (.sbn .l 8) := by decide
theorem test_wf_refuses_isbn : ¬ Instr.WellFormed (.isbn .r 8) := by decide
theorem test_wf_refuses_krol : ¬ Instr.WellFormed (.krol 128) := by decide
theorem test_wf_refuses_kror : ¬ Instr.WellFormed (.kror 128) := by decide
theorem test_wf_refuses_ksbn : ¬ Instr.WellFormed (.ksbn 32) := by decide
theorem test_wf_refuses_kisbn : ¬ Instr.WellFormed (.kisbn 32) := by decide
theorem test_wf_refuses_kxrc : ¬ Instr.WellFormed (.kxrc 31) := by decide
theorem test_wf_refuses_advk : ¬ Instr.WellFormed (.advk 31) := by decide
theorem test_wf_refuses_retk : ¬ Instr.WellFormed (.retk 31) := by decide
theorem test_wf_refuses_ldrk : ¬ Instr.WellFormed (.ldrk 31) := by decide

/-- The limits themselves are accepted. -/
theorem test_wf_accepts_limits :
    [Instr.rol .l 31, .ror .l 31, .sbn .l 7, .isbn .l 7, .krol 127, .kror 127, .ksbn 31, .kisbn 31,
     .kxrc 30, .advk 30, .retk 30, .ldrk 30].all (fun i => decide i.WellFormed) = true := by decide

/-! ### Decoding (V10, V11) -/

/-- `w` decodes to `i`, and `i` encodes to `w`. -/
abbrev DecodesTo (w : Word) (i : Instr) : Prop := decode w = .ok i ∧ encode i = w

theorem test_decode_mov : DecodesTo 0x00000201#32 (.mov .t .l) := by decide
theorem test_decode_mov_nop : DecodesTo 0x00000001#32 (.mov .l .l) := by decide
theorem test_decode_xor : DecodesTo 0x00000402#32 (.xor .l .r) := by decide
theorem test_decode_rol : DecodesTo 0x001F0203#32 (.rol .t 31) := by decide
theorem test_decode_ror : DecodesTo 0x00070204#32 (.ror .t 7) := by decide
theorem test_decode_sbn : DecodesTo 0x00070105#32 (.sbn .r 7) := by decide
theorem test_decode_isbn : DecodesTo 0x00030206#32 (.isbn .t 3) := by decide
theorem test_decode_sbw : DecodesTo 0x00000007#32 (.sbw .l) := by decide
theorem test_decode_isbw : DecodesTo 0x00000108#32 (.isbw .r) := by decide
theorem test_decode_gkl : DecodesTo 0x00000209#32 (.gkl .t) := by decide
theorem test_decode_gkr : DecodesTo 0x0000010A#32 (.gkr .r) := by decide
theorem test_decode_krol : DecodesTo 0x007F0010#32 (.krol 127) := by decide
theorem test_decode_kror : DecodesTo 0x000D0011#32 (.kror 13) := by decide
theorem test_decode_ksbn : DecodesTo 0x001F0012#32 (.ksbn 31) := by decide
theorem test_decode_kisbn : DecodesTo 0x00010013#32 (.kisbn 1) := by decide
theorem test_decode_kxrc : DecodesTo 0x001E0014#32 (.kxrc 30) := by decide
theorem test_decode_advk : DecodesTo 0x00050018#32 (.advk 5) := by decide
theorem test_decode_retk : DecodesTo 0x00010019#32 (.retk 1) := by decide
theorem test_decode_round : DecodesTo 0x00000020#32 .round := by decide
theorem test_decode_iround : DecodesTo 0x00000021#32 .iround := by decide
theorem test_decode_kexp : DecodesTo 0x00000028#32 .kexp := by decide
theorem test_decode_ldrk : DecodesTo 0x001E0029#32 (.ldrk 30) := by decide
theorem test_decode_enc : DecodesTo 0x00000030#32 .enc := by decide
theorem test_decode_dec : DecodesTo 0x00000031#32 .dec := by decide

/-- V11, cause 1: reserved opcodes, whatever the other fields. -/
theorem test_decode_reserved_opcodes :
    [0x00000000#32, 0x0000000B#32, 0x0000000F#32, 0x00000015#32, 0x0000001A#32, 0x00000022#32,
     0x0000002A#32, 0x00000032#32, 0x000000FF#32, 0xFFFFFFFF#32].all
      (fun w => decide (decode w = .error .reservedOpcode)) = true := by decide

/-- V11, cause 2: the register, Z1, Z2 and unused-field checks. -/
theorem test_decode_reserved_fields :
    [0x00000301#32, 0x00000C01#32, 0x00010001#32, 0x00001002#32, 0x00800002#32, 0x80000002#32,
     0x00030403#32, 0x00000307#32, 0x00010007#32, 0x00000409#32, 0x00000110#32, 0x00010020#32,
     0x00000130#32, 0x00000431#32, 0x00001028#32].all
      (fun w => decide (decode w = .error .reservedField)) = true := by decide

/-- V11, cause 2: immediates above the range. -/
theorem test_decode_immediates_out_of_range :
    [0x00200003#32, 0x00080005#32, 0x00200012#32, 0x001F0014#32, 0x001F0018#32, 0x00400018#32,
     0x001F0019#32, 0x001F0029#32].all
      (fun w => decide (decode w = .error .reservedField)) = true := by decide

theorem test_decodeTableWord : decodeTableWord 32 0x001E0029 = some (.ldrk 30) ∧
    decodeTableWord 32 0x00000000 = none := by decide

/-! ### The example tables (95_test_vectors.md section 1), not the engine's -/

/-- Entry `x` of a 16-entry table written as one 64-bit constant, entry 0 lowest. -/
def entry (table : BitVec 64) (x : Nibble) : Nibble := table.extractLsb' (4 * x.toNat) 4

/-- PSET-B. -/
def psetB : Tables where
  sbox :=
    { toFun := entry 0xD6792B4C85A01EF3#64
      invFun := entry 0x12F8A5C7DE690B34#64
      left_inv := by unfold Function.LeftInverse; decide
      right_inv := by unfold Function.RightInverse Function.LeftInverse; decide }
  rc := fun i => BitVec.ofNat 8 i.val

/-- PSET-B with bits [7:5] of every constant set. -/
def psetB' : Tables := { psetB with rc := fun i => BitVec.ofNat 8 (i.val + 0xE0) }

/-! ### Helpers -/

/-- The specimen key. -/
def ks : Key := 0x0123456789ABCDEFFEDCBA9876543210#128

/-- A state with the given registers and the status after reset, everything else zero. -/
def st (l r t : Word) (k : Key) : State where
  l := l
  r := r
  t := t
  k := k
  rkc := Vector.replicate 31 0
  err := false
  rkv := false
  ecause := 0
  host := []
  replies := []
  resets := 1

/-- The next state's words L, R, T. -/
def words (o : Host.Outcome State Fault Refusal) : Option (Word × Word × Word) :=
  match o with
  | .next s => some (s.l, s.r, s.t)
  | .fault _ | .refused _ => none

/-- The next state's key. -/
def key (o : Host.Outcome State Fault Refusal) : Option Key :=
  match o with
  | .next s => some s.k
  | .fault _ | .refused _ => none

/-- What STATUS reads in the next state. -/
def status (o : Host.Outcome State Fault Refusal) : Option Word :=
  match o with
  | .next s => some (s.regRead 1)
  | .fault _ | .refused _ => none

/-! ### One command (V20 to V62) -/

/-- V20. -/
theorem test_mov : words (execWith psetB (.mov .r .t) (st 0x11223344 0x55667788 0xDEADBEEF 0)) =
    some (0x11223344, 0xDEADBEEF, 0xDEADBEEF) := by decide

/-- V20. -/
theorem test_xor : words (execWith psetB (.xor .r .l) (st 0x11223344 0x55667788 0xDEADBEEF 0)) =
    some (0x11223344, 0x444444CC, 0xDEADBEEF) := by decide

/-- V21. -/
theorem test_rol : words (execWith psetB (.rol .l 4) (st 0x12345678 0 0 0)) =
    some (0x23456781, 0, 0) := by decide

/-- V21. -/
theorem test_ror : words (execWith psetB (.ror .l 31) (st 0x12345678 0 0 0)) =
    some (0x2468ACF0, 0, 0) := by decide

/-- V22. -/
theorem test_sbn : words (execWith psetB (.sbn .l 7) (st 0x12345678 0 0 0)) =
    some (0xF2345678, 0, 0) := by decide

/-- V22. -/
theorem test_isbn : words (execWith psetB (.isbn .l 3) (st 0x12345678 0 0 0)) =
    some (0x12346678, 0, 0) := by decide

/-- V22. -/
theorem test_sbw : words (execWith psetB (.sbw .l) (st 0x01234567 0 0 0)) =
    some (0x3FE10A58, 0, 0) := by decide

/-- V22. -/
theorem test_isbw : words (execWith psetB (.isbw .l) (st 0xC4B2976D 0 0 0)) =
    some (0x89ABCDEF, 0, 0) := by decide

/-- V23. -/
theorem test_gkl : words (execWith psetB (.gkl .t) (st 0 0 0 ks)) =
    some (0, 0, 0xFEDCBA98) := by decide

/-- V23. -/
theorem test_gkr : words (execWith psetB (.gkr .r) (st 0 0 0 ks)) =
    some (0, 0x76543210, 0) := by decide

/-- V30. -/
theorem test_krol : key (execWith psetB (.krol 13) (st 0 0 0 ks)) =
    some 0x68ACF13579BDFFDB97530ECA86420024 := by decide

/-- V30. -/
theorem test_krol_64 : key (execWith psetB (.krol 64) (st 0 0 0 ks)) =
    some 0xFEDCBA98765432100123456789ABCDEF := by decide

/-- V30. -/
theorem test_kror : key (execWith psetB (.kror 13) (st 0 0 0 ks)) =
    some 0x9080091A2B3C4D5E6F7FF6E5D4C3B2A1 := by decide

/-- V31. -/
theorem test_ksbn : key (execWith psetB (.ksbn 31) (st 0 0 0 0x68ACF13579BDFFDB97530ECA86420024)) =
    some 0x58ACF13579BDFFDB97530ECA86420024 := by decide

/-- V31. -/
theorem test_kisbn : key (execWith psetB (.kisbn 1) (st 0 0 0 0x68ACF13579BDFFDB97530ECA86420024)) =
    some 0x68ACF13579BDFFDB97530ECA864200B4 := by decide

/-- V31. -/
theorem test_kxrc : key (execWith psetB (.kxrc 5) (st 0 0 0 0x68ACF13579BDFFDB97530ECA86420024)) =
    some 0x68ACF13579BDFFDBBF530ECA86420024 := by decide

/-- V31. -/
theorem test_kxrc_21 : key (execWith psetB (.kxrc 21) (st 0 0 0 0xFFFFFFFFFFFFFFFFFFFFFFFFFFFFFFFF)) =
    some 0xFFFFFFFFFFFFFFFF57FFFFFFFFFFFFFF := by decide

/-- V32. -/
theorem test_advk : key (execWith psetB (.advk 5) (st 0 0 0 ks)) =
    some 0x68ACF13579BDFFDBBF530ECA864200E4 := by decide

/-- V32. -/
theorem test_retk : key (execWith psetB (.retk 1) (st 0 0 0 ks)) =
    some 0x9180091A2B3C4D5E6F7FB6E5D4C3B2A1 := by decide

/-- V50. -/
theorem test_round : words (execWith psetB .round (st 0x11223344 0x55667788 0xDEADBEEF ks)) =
    some (0xE6E2A4C6, 0xBDCFA01E, 0xDEADBEEF) := by decide

/-- V52. -/
theorem test_iround : words (execWith psetB .iround (st 0x11223344 0x55667788 0xDEADBEEF ks)) =
    some (0x68869F1E, 0xA8B5398E, 0xDEADBEEF) := by decide

/-- V60. -/
theorem test_enc : words (execWith psetB .enc (st 0x11223344 0x55667788 0xDEADBEEF ks)) =
    some (0x7D566881, 0x077C0F8F, 0xDEADBEEF) := by decide +kernel

/-- V61. -/
theorem test_dec : words (execWith psetB .dec (st 0x11223344 0x55667788 0xDEADBEEF ks)) =
    some (0x0D33D2E8, 0x0E3CEF51, 0xDEADBEEF) := by decide +kernel

/-- V40: entry 30 of the expanded cache. -/
theorem test_kexp : (expandKeys psetB ks)[30] = 0xA6E7F93E6DD3BB191916CF65946CA697 := by
  decide +kernel

/-- R212: KEXP sets RKV and no error (STATUS reads 2). -/
theorem test_kexp_status : status (execWith psetB .kexp (st 0 0 0 ks)) = some 0x00000002 := by decide

/-- V12: LDRK with RKV = 0. -/
theorem test_ldrk_not_valid : status (execWith psetB (.ldrk 0) (st 0 0 0 ks)) = some 0x00000031 := by
  decide

/-- R213: LDRK loads the entry named. -/
theorem test_ldrk : key (execWith psetB (.ldrk 30)
    ((st 0 0 0 ks).setCache ((Vector.replicate 31 0).set 30 7))) = some 7 := by decide

/-! ### The interface -/

/-- R51: the register map. -/
theorem test_register_map : (List.finRange 16).map HostReg.ofIndex =
    [.cmd, .status, .word .l, .word .r, .word .t, .reserved, .reserved, .reserved,
     .key 0, .key 1, .key 2, .key 3, .reserved, .reserved, .reserved, .reserved] := by decide

/-- R55: the specimen key's words, lowest index least significant. -/
theorem test_key_words : [8, 9, 10, 11].map (st 0 0 0 ks).regRead =
    [0x76543210#32, 0xFEDCBA98#32, 0x89ABCDEF#32, 0x01234567#32] := by decide

/-- R33, R34: the specimen key from its halves, and a block packed and unpacked. -/
theorem test_combine : combine128 0x0123456789ABCDEF 0xFEDCBA9876543210 = ks ∧
    combine64 (0x11223344, 0x55667788) = 0x1122334455667788 ∧
    split64 0x1122334455667788 = (0x11223344, 0x55667788) := by decide

/-- R91: the words of NOP and `CLR T`, and the expansion of `setkey` (V1, Program 1). -/
theorem test_pseudo_instructions : encode nop = 0x00000001 ∧ encode (clr .t) = 0x00000A02 ∧
    setkey ks = [.write 8 0x76543210, .write 9 0xFEDCBA98, .write 10 0x89ABCDEF, .write 11 0x01234567] := by
  decide

/-- R53: a write of K2 replaces bits [95:64]. -/
theorem test_key_write : key (regWrite exec 10 0x89ABCDEF (st 0 0 0 0)) =
    some 0x0000000089ABCDEF0000000000000000 := by decide

/-- V11: after a reserved opcode, and after a reserved field, with RKV = 1. -/
theorem test_status_after_errors :
    status (regWrite exec 0 0x0000000B { st 0 0 0 0 with rkv := true }) = some 0x00000013 ∧
    status (regWrite exec 0 0x00000301 { st 0 0 0 0 with rkv := true }) = some 0x00000023 := by decide

/-- V12: the field check comes before cause 3. -/
theorem test_cause_priority :
    status (regWrite exec 0 0x001F0029 (st 0 0 0 0)) = some 0x00000021 ∧
    status (regWrite exec 0 0x00000129 (st 0 0 0 0)) = some 0x00000021 := by decide

/-- R234: a command written to a faulted engine does nothing, a write of L does. -/
theorem test_faulted_engine :
    words (regWrite exec 0 0x00000201 { st 1 2 3 0 with err := true, ecause := 1 }) = some (1, 2, 3) ∧
    words (regWrite exec 2 9 { st 1 2 3 0 with err := true, ecause := 1 }) = some (9, 2, 3) := by decide

/-- Log 5: a word placed by `withFetchWord` is the first command run after reset. -/
theorem test_withFetchWord :
    step (State.reset.withFetchWord 32 0x00000201) = exec (.mov .t .l) State.reset := rfl

/-- R52: a read answers the host. -/
theorem test_read_step :
    step { st 1 2 3 0 with host := [.read 3] } = .next { st 1 2 3 0 with replies := [2] } := rfl

/-! ### A state and operands that meet the hypotheses of each obligation -/

theorem witness_DecodeOfEncodeIsTheCommand : (Instr.ldrk 30).WellFormed ∧ (Instr.krol 127).WellFormed :=
  by decide

theorem witness_EncodeOfDecodeIsTheWord : decode 0x001F0203#32 = .ok (.rol .t 31) := by decide

/-- An opcode in no row; the row of ROL with its limit and one above; the row of MOV with rs = 2 and 3. -/
theorem witness_DecodeClassifiesEveryWord :
    (∀ row ∈ opcodeMap, row.op ≠ opOf 0x0000000B#32) ∧
    (⟨0x03, true, false, 31⟩ : MapRow) ∈ opcodeMap ∧ 0x03 = opOf 0x001F0003#32 ∧
    (⟨0x03, true, false, 31⟩ : MapRow).FieldsLegal 0x001F0003#32 ∧
    ¬ (⟨0x03, true, false, 31⟩ : MapRow).FieldsLegal 0x00200003#32 ∧
    (⟨0x01, true, true, 0⟩ : MapRow).FieldsLegal 0x00000801#32 ∧
    ¬ (⟨0x01, true, true, 0⟩ : MapRow).FieldsLegal 0x00000C01#32 := by
  refine ⟨?_, ?_, ?_, ?_, ?_, ?_, ?_⟩
  · unfold opcodeMap; decide
  · unfold opcodeMap; exact .tail _ (.tail _ (.head _))
  all_goals first | decide | (unfold MapRow.FieldsLegal; decide)

theorem witness_MovCopiesTheSource : WordReg.l = WordReg.l ∧ WordReg.t ≠ WordReg.l := by decide

theorem witness_XorCombinesBitwise : (st 1 0 3 0).reg .r = 0#32 ∧ WordReg.l ≠ WordReg.r := by decide

/-- ROL and ROR at 0, 31 and 32. -/
theorem witness_RolMovesEachBitUp : (0 ≤ 31 ∧ 31 ≤ 31) ∧ 32 ≤ 32 := by decide

theorem witness_RorMovesEachBitDown : (0 ≤ 31 ∧ 31 ≤ 31) ∧ 32 ≤ 32 := by decide

/-- SBN at 7 and 8, a bit outside nibble 7, and an order other than the ascending one. -/
theorem witness_SbnSubstitutesOneNibble : 7 ≤ 7 ∧ 8 ≤ 8 ∧ (27 < 32 ∧ ¬ (4 * 7 ≤ 27 ∧ 27 ≤ 4 * 7 + 3)) ∧
    [7, 6, 5, 4, 3, 2, 1, 0].Perm [0, 1, 2, 3, 4, 5, 6, 7] := by decide

theorem witness_IsbnSubstitutesBackOneNibble :
    7 ≤ 7 ∧ 8 ≤ 8 ∧ (27 < 32 ∧ ¬ (4 * 7 ≤ 27 ∧ 27 ≤ 4 * 7 + 3)) := by decide

theorem witness_KrolMovesEachKeyBitUp :
    (0 ≤ 127 ∧ 127 ≤ 127) ∧ decode 0x007F0010#32 = .ok (.krol 127) := by decide

theorem witness_KrorMovesEachKeyBitDown :
    (0 ≤ 127 ∧ 127 ≤ 127) ∧ decode 0x007F0011#32 = .ok (.kror 127) := by decide

theorem witness_KsbnSubstitutesOneKeyNibble :
    31 ≤ 31 ∧ 32 ≤ 32 ∧ (123 < 128 ∧ ¬ (4 * 31 ≤ 123 ∧ 123 ≤ 4 * 31 + 3)) := by decide

theorem witness_KisbnSubstitutesBackOneKeyNibble :
    31 ≤ 31 ∧ 32 ≤ 32 ∧ (123 < 128 ∧ ¬ (4 * 31 ≤ 123 ∧ 123 ≤ 4 * 31 + 3)) := by decide

/-- KXRC at 30 and 31, and the bits on either side of the field. -/
theorem witness_KxrcFoldsTheRoundConstant :
    (30 : Fin 31).val = 30 ∧ 31 ≤ 31 ∧ ¬ (59 ≤ 58 ∧ 58 ≤ 63) ∧ ¬ (59 ≤ 64 ∧ 64 ≤ 63) := by decide

theorem witness_AdvkAdvancesTheKey :
    31 ≤ 31 ∧ (58 < 128 ∧ ¬ (4 ≤ 58 ∧ 58 ≤ 7) ∧ ¬ (59 ≤ 58 ∧ 58 ≤ 63)) ∧
    (3 < 128 ∧ ¬ (4 ≤ 3 ∧ 3 ≤ 7) ∧ ¬ (59 ≤ 3 ∧ 3 ≤ 63)) := by decide

theorem witness_RetkRetreatsTheKey :
    31 ≤ 31 ∧ (118 < 128 ∧ ¬ (119 ≤ 118 ∧ 118 ≤ 122) ∧ ¬ (46 ≤ 118 ∧ 118 ≤ 50)) ∧
    (51 < 128 ∧ ¬ (119 ≤ 51 ∧ 51 ≤ 122) ∧ ¬ (46 ≤ 51 ∧ 51 ≤ 50)) := by decide

/-- Two table sets with the same SBOX and different constants that agree in bits [4:0]. -/
theorem witness_UpperConstantBitsInfluenceNothing :
    psetB.sbox = psetB'.sbox ∧
    (∀ i c, c < 5 → (psetB.rc i).getLsbD c = (psetB'.rc i).getLsbD c) ∧ psetB.rc 0 ≠ psetB'.rc 0 := by
  refine ⟨rfl, ?_, by decide⟩
  intro i c hc
  have h : ∀ (i : Fin 31) (c : Fin 5), (psetB.rc i).getLsbD c.val = (psetB'.rc i).getLsbD c.val := by
    decide
  exact h i ⟨c, hc⟩

/-- A key that differs from the state's in bits [127:64] alone, and both commands. -/
theorem witness_UpperKeyHalfDoesNotEnterARound :
    (0xFFFFFFFFFFFFFFFF0000000000000000#128).extractLsb' 0 64 = (st 1 2 3 0).k.extractLsb' 0 64 ∧
    (0xFFFFFFFFFFFFFFFF0000000000000000#128) ≠ (st 1 2 3 0).k ∧
    (Instr.round = .round ∨ Instr.round = .iround) ∧ (Instr.iround = .round ∨ Instr.iround = .iround) := by
  decide

/-- Both values of RKV, and the indices 30 and 31. -/
theorem witness_LdrkLoadsAnEntryOrRaises :
    ((st 1 2 3 ks).setCache (Vector.replicate 31 5)).rkv = true ∧ (st 1 2 3 ks).rkv = false ∧
    (30 : Fin 31).val = 30 ∧ 31 ≤ 31 := by decide

/-- Two different states that agree in K, L and R. -/
theorem witness_DriversDependOnKeyAndBlockAlone :
    (Instr.enc = .enc ∨ Instr.enc = .dec) ∧ (Instr.dec = .enc ∨ Instr.dec = .dec) ∧
    (st 1 2 3 ks).k = (st 1 2 4 ks).k ∧ (st 1 2 3 ks).l = (st 1 2 4 ks).l ∧
    (st 1 2 3 ks).r = (st 1 2 4 ks).r ∧ st 1 2 3 ks ≠ st 1 2 4 ks := by decide

theorem witness_AdmittedCommandsNeverRaise :
    (Instr.ldrk 30).WellFormed ∧
    (∀ n, Instr.ldrk 30 = .ldrk n → ((st 1 2 3 ks).setCache (Vector.replicate 31 5)).rkv = true) :=
  ⟨by decide, fun _ _ => rfl⟩

theorem witness_ImmediateAboveRangeRaises :
    ¬ (Instr.krol 128).WellFormed ∧ ¬ (Instr.sbn .t 8).WellFormed := by decide

/-- A state for each clause: KEXP changes RKV, KROL changes K, ROUND is one of the five. -/
theorem witness_OnlyTheNamedCommandsWriteEachPart :
    (∃ t, exec .kexp (st 1 2 3 ks) = .next t ∧ t.rkv ≠ (st 1 2 3 ks).rkv) ∧
    (∃ t, exec (.krol 1) (st 1 2 3 ks) = .next t ∧ t.k ≠ (st 1 2 3 ks).k) ∧
    (∃ t, exec .round (st 1 2 3 ks) = .next t) :=
  ⟨⟨_, exec_kexp _, by rw [State.setCache_rkv]; decide⟩, ⟨_, rfl, by decide⟩, ⟨_, rfl⟩⟩

/-- Boundary indices of R52: each premise names the index itself. -/
theorem witness_ReadReturnsTheRegister :
    (0 : Fin 16).val = 0 ∧ (11 : Fin 16).val = 11 ∧ (5 : Fin 16).val ∈ [5, 6, 7, 12, 13, 14, 15] ∧
    (15 : Fin 16).val ∈ [5, 6, 7, 12, 13, 14, 15] := by decide

/-- Each clause of the write statement, and the words it needs. -/
theorem witness_WriteReplacesTheRegister :
    ({ st 1 2 3 ks with err := true }).err = true ∧ (st 1 2 3 ks).err = false ∧
    decode 0x00000030#32 = .ok .enc ∧ decode 0x00000000#32 = .error .reservedOpcode ∧
    (8 ≤ (8 : Fin 16).val ∧ (8 : Fin 16).val ≤ 11) ∧ (8 ≤ (11 : Fin 16).val ∧ (11 : Fin 16).val ≤ 11) ∧
    (1 : Fin 16).val ∈ [1, 5, 6, 7, 12, 13, 14, 15] := by decide

/-- Cause 1; cause 2 and cause 3 on the LDRK row; the same word admitted with RKV = 1. -/
theorem witness_CommandWriteDecodesAndAdmits :
    (st 1 2 3 ks).err = false ∧ (∀ row ∈ opcodeMap, row.op ≠ opOf 0x0000000B#32) ∧
    (⟨0x29, false, false, 30⟩ : MapRow) ∈ opcodeMap ∧ 0x29 = opOf 0x001E0029#32 ∧
    ¬ (⟨0x29, false, false, 30⟩ : MapRow).FieldsLegal 0x001F0029#32 ∧
    (⟨0x29, false, false, 30⟩ : MapRow).FieldsLegal 0x001E0029#32 ∧ (st 1 2 3 ks).rkv = false ∧
    ((st 1 2 3 ks).setCache (Vector.replicate 31 5)).rkv = true := by
  refine ⟨by decide, ?_, ?_, by decide, ?_, ?_, by decide, by decide⟩
  · unfold opcodeMap; decide
  · unfold opcodeMap
    simp
  all_goals (unfold MapRow.FieldsLegal; decide)

theorem witness_FaultedStateLastsUntilReset :
    ({ st 1 2 3 ks with err := true, ecause := 2 }).err = true ∧ (0 : Fin 16) ≠ 1 ∧ (8 : Fin 16) ≠ 0 ∧
    regWrite exec 2 9 { st 1 2 3 ks with err := true, ecause := 2 } =
      .next { st 9 2 3 ks with err := true, ecause := 2 } :=
  ⟨rfl, by decide, by decide, rfl⟩

theorem witness_ReadAfterWriteReturnsIt :
    (2 : Fin 16).val ∈ [2, 3, 4, 8, 9, 10, 11] ∧ (11 : Fin 16).val ∈ [2, 3, 4, 8, 9, 10, 11] := by decide

theorem witness_StepTakesTheNextHostAccess :
    NextEvent { st 1 2 3 ks with host := [.read 1] } (.read 1) [] ∧
    NextEvent { st 1 2 3 ks with host := [.write 2 7, .read 2] } (.write 2 7) [.read 2] ∧
    NextEvent { st 1 2 3 ks with host := [.reset] } .reset [] ∧ (st 1 2 3 ks).host = [] :=
  ⟨rfl, rfl, rfl, rfl⟩

theorem witness_StepRunsTheDecodedCommand :
    NextEvent { st 1 2 3 ks with host := [.write 0 0x00000020#32] } (.write 0 0x00000020#32) [] ∧
    ({ st 1 2 3 ks with host := [.write 0 0x00000020#32] }).err = false ∧
    decode 0x00000020#32 = .ok .round := ⟨rfl, rfl, by decide⟩

/-- A faulted state with RKV = 1 that reads STATUS. -/
theorem witness_OnlyResetClearsTheFault :
    ∃ s t : State, step s = .next t ∧ (∀ rest, ¬ NextEvent s .reset rest) ∧ s.err = true ∧ s.rkv = true :=
  ⟨{ st 1 2 3 ks with host := [.read 1], err := true, ecause := 1, rkv := true }, _, rfl,
    fun _ h => by simp [NextEvent] at h, rfl, rfl⟩

/-- A write to a reserved index; and, for the first clause, a faulted state after it. -/
theorem witness_OnlyACommandCanRaise :
    ∃ s t : State, step s = .next t ∧ (∀ w rest, ¬ NextEvent s (.write 0 w) rest) ∧ t.err = true ∧
      (∀ rest, ¬ NextEvent s .reset rest) :=
  ⟨{ st 1 2 3 ks with host := [.write 5 7], err := true, ecause := 1 }, _, rfl,
    fun _ _ h => by simp [NextEvent] at h, rfl, fun _ h => by simp [NextEvent] at h⟩

/-- The words in descending order, on top of another key. -/
theorem witness_SetkeyWritesTheWholeKey :
    [3, 2, 1, 0].Perm ([0, 1, 2, 3] : List (Fin 4)) ∧
    ({ st 1 2 3 7 with host := [.write 11 0x01234567, .write 10 0x89ABCDEF, .write 9 0xFEDCBA98,
        .write 8 0x76543210, .read 8] }).host =
      ([3, 2, 1, 0] : List (Fin 4)).map
        (fun q => .write (Fin.ofNat 16 (8 + q.val)) (ks.extractLsb' (32 * q.val) 32)) ++ [.read 8] := by
  decide

/-- The source's scenario (V1), for both clauses. -/
theorem witness_TranscriptsComputeEncryptAndDecrypt :
    (st 1 2 3 7).err = false ∧
    ({ st 1 2 3 7 with host := setkey ks ++ setblk (0x11223344, 0x55667788) ++ [cmd .enc] ++ getblk }).host =
      setkey ks ++ setblk (0x11223344, 0x55667788) ++ [cmd .enc] ++ getblk ++ [] ∧
    ({ st 1 2 3 7 with host := setkey ks ++ setblk (0x7D566881, 0x077C0F8F) ++ [cmd .dec] ++ getblk }).host =
      setkey ks ++ setblk (0x7D566881, 0x077C0F8F) ++ [cmd .dec] ++ getblk ++ [] := by
  decide

/-- A faulted state whose next events are a reset and a command. -/
theorem witness_ResetEventLeavesTheFault :
    NextEvent { st 1 2 3 ks with host := [.reset, .write 0 0x00000020#32], err := true, ecause := 1 }
      .reset [.write 0 0x00000020#32] ∧ decode 0x00000020#32 = .ok .round := ⟨rfl, by decide⟩

/-- A coherent faulted state, of cause 3, that takes a step; and the state after reset. -/
theorem witness_StepsKeepStatusCoherent :
    (∃ s t : State, s.StatusCoherent ∧ s.err = true ∧ step s = .next t) ∧ State.reset.StatusCoherent :=
  ⟨⟨{ st 1 2 3 ks with host := [.write 0 1], err := true, ecause := 3 }, _, by decide, rfl, rfl⟩,
    by decide⟩

/-- A state whose RKV is 1 and whose cache is an expansion takes a step. -/
theorem witness_StepsKeepTheCacheExpanded :
    ∃ s t : State, s.CacheExpanded ∧ s.rkv = true ∧ step s = .next t :=
  ⟨(st 1 2 3 ks).setCache (expandKeys Config.tables ks), _,
    fun _ => ⟨ks, State.setCache_rkc ..⟩, State.setCache_rkv .., by
      unfold step stepOver
      rw [State.setCache_host]
      rfl⟩

/-- Both ends of both ranges. -/
theorem witness_PrimitivesUndoEachOther : (0 ≤ 31 ∧ 31 ≤ 31) ∧ (0 ≤ 127 ∧ 127 ≤ 127) := by decide

end Sys2Proof.Tests
end

section
/-! O23: the round constants enter a command only through `foldRc`, which reads their bits [4:0]
(41_key_schedule.md R152); so tables that agree there and in `SBOX` give every command one outcome
(00_scope.md R7). -/

namespace Sys2Proof.Machine

/-- `fold_rc` reads bits [4:0] of the constant only (R152). -/
theorem foldRc_congr (k : Key) {rc rc' : Byte} (h : ∀ c, c < 5 → rc.getLsbD c = rc'.getLsbD c) :
    foldRc k rc = foldRc k rc' := by
  apply BitVec.eq_of_getLsbD_eq
  intro i _
  rw [getLsbD_foldRc, getLsbD_foldRc]
  split
  · rw [h (i - 59) (by omega)]
  · rfl

section SameTables

variable {tb tb' : Tables} (hsbox : tb.sbox = tb'.sbox)
include hsbox

/-! ### What depends on `SBOX` alone -/

theorem sboxInv_congr : sboxInv tb = sboxInv tb' := by
  rw [sboxInv, sboxInv, hsbox]

theorem substituteWord_congr (w : Word) : substituteWord tb w = substituteWord tb' w := by
  rw [substituteWord, substituteWord, hsbox]

theorem invSubstituteWord_congr (w : Word) :
    invSubstituteWord tb w = invSubstituteWord tb' w := by
  rw [invSubstituteWord, invSubstituteWord, sboxInv_congr hsbox]

theorem roundFn_congr (b : Block) (kl kr : Word) : roundFn tb b kl kr = roundFn tb' b kl kr := by
  rw [roundFn, roundFn, substituteWord_congr hsbox]

theorem invRoundFn_congr (b : Block) (kl kr : Word) :
    invRoundFn tb b kl kr = invRoundFn tb' b kl kr := by
  rw [invRoundFn, invRoundFn, invSubstituteWord_congr hsbox]

theorem decryptLoop_congr (cache : Vector Key 31) (is : List (Fin 31)) (b : Block) :
    decryptLoop tb cache is b = decryptLoop tb' cache is b := by
  induction is generalizing b with
  | nil => rfl
  | cons i is ih => rw [decryptLoop, decryptLoop, invRoundFn_congr hsbox, ih]

/-! ### What depends on bits [4:0] of the constants too -/

theorem advanceKey_congr (k : Key) {rc rc' : Byte}
    (h : ∀ c, c < 5 → rc.getLsbD c = rc'.getLsbD c) :
    advanceKey tb k rc = advanceKey tb' k rc' := by
  rw [advanceKey, advanceKey, hsbox, foldRc_congr _ h]

theorem retreatKey_congr (k : Key) {rc rc' : Byte}
    (h : ∀ c, c < 5 → rc.getLsbD c = rc'.getLsbD c) :
    retreatKey tb k rc = retreatKey tb' k rc' := by
  rw [retreatKey, retreatKey, sboxInv_congr hsbox, foldRc_congr _ h]

variable (hrc : ∀ i c, c < 5 → (tb.rc i).getLsbD c = (tb'.rc i).getLsbD c)
include hrc

theorem encryptLoop_congr (is : List (Fin 31)) (k : Key) (b : Block) :
    encryptLoop tb is k b = encryptLoop tb' is k b := by
  induction is generalizing k b with
  | nil => rfl
  | cons i is ih =>
    rw [encryptLoop, encryptLoop, advanceKey_congr hsbox k (hrc i), roundFn_congr hsbox, ih]

theorem expandLoop_congr (is : List (Fin 31)) (k : Key) (cache : Vector Key 31) :
    expandLoop tb is k cache = expandLoop tb' is k cache := by
  induction is generalizing k cache with
  | nil => rfl
  | cons i is ih => rw [expandLoop, expandLoop, advanceKey_congr hsbox k (hrc i), ih]

theorem expandKeys_congr (key : Key) : expandKeys tb key = expandKeys tb' key :=
  expandLoop_congr hsbox hrc roundIndices key _

/-- Each command takes the tables through the functions above, or not at all. -/
theorem execWith_congr (i : Instr) (s : State) : execWith tb i s = execWith tb' i s := by
  cases i with
  | mov | xor | rol | ror | gkl | gkr | krol | kror | ldrk => rfl
  | sbn => simp only [execWith, sbnWith, hsbox]
  | isbn => simp only [execWith, isbnWith, sboxInv_congr hsbox]
  | sbw => simp only [execWith, sbwWith, substituteWord_congr hsbox]
  | isbw => simp only [execWith, isbwWith, invSubstituteWord_congr hsbox]
  | ksbn => simp only [execWith, ksbnWith, hsbox]
  | kisbn => simp only [execWith, kisbnWith, sboxInv_congr hsbox]
  | kxrc => simp only [execWith, kxrcWith, foldRc_congr s.k (hrc _)]
  | advk => simp only [execWith, advkWith, advanceKey_congr hsbox s.k (hrc _)]
  | retk => simp only [execWith, retkWith, retreatKey_congr hsbox s.k (hrc _)]
  | round => simp only [execWith, roundWith, roundFn_congr hsbox]
  | iround => simp only [execWith, iroundWith, invRoundFn_congr hsbox]
  | kexp => simp only [execWith, kexpWith, expandKeys_congr hsbox hrc]
  | enc => simp only [execWith, encWith, encrypt, encryptLoop_congr hsbox hrc]
  | dec =>
    simp only [execWith, decWith, decryptFrom, expandKeys_congr hsbox hrc,
      decryptLoop_congr hsbox]

end SameTables

/-- Settles O23: no function of the model reads the constants but through `foldRc`. -/
theorem upperConstantBitsInfluenceNothing : Obligations.UpperConstantBitsInfluenceNothing := by
  unfold Obligations.UpperConstantBitsInfluenceNothing
  intro tb tb' hsbox hrc i s
  exact execWith_congr hsbox hrc i s

end Sys2Proof.Machine
end


section
/-! O56, O58, O53, O28 and O40: what the state of 10_state.md keeps. The status invariant is kept by
each named update, then by each effect of a command and of a step; the part each command writes is
read off once (`exec_writes`), and the frame of each part follows. -/

namespace Sys2Proof.Machine

open Sys2Proof.Claims

/-! ### One command, and the idle step -/

/-- The inversion lemma of `exec`. -/
theorem Effect.of_exec {i : Instr} {s t : State} (h : exec i s = .next t) : Effect i s t := by
  obtain ⟨t', h', he⟩ := exec_effect i s
  cases h.symm.trans h'
  exact he

/-- With no host event to come the engine holds its state (70_reset_and_hazards.md R261). -/
theorem step_of_host_nil {s : State} (h : s.host = []) : step s = .next s := by
  simp only [step, stepOver, h]

/-! ### Updates that leave STATUS -/

theorem sameStatus_setReg (s : State) (rd : WordReg) (v : Word) : SameStatus s (s.setReg rd v) := by
  simp [SameStatus]

theorem sameStatus_setBlock (s : State) (b : Block) : SameStatus s (s.setBlock b) :=
  ⟨rfl, rfl, rfl⟩

theorem sameStatus_setKey (s : State) (k : Key) : SameStatus s (s.setKey k) := ⟨rfl, rfl, rfl⟩

theorem sameStatus_dataWrite (s : State) (a : Fin 16) (v : Word) :
    SameStatus s (s.dataWrite a v) := by
  obtain h | ⟨x, -, h⟩ | ⟨q, -, h⟩ := dataWrite_cases s a v <;> rw [h]
  · exact ⟨rfl, rfl, rfl⟩
  · exact sameStatus_setReg ..
  · exact sameStatus_setKey ..

/-! ### STATUS stays coherent (10_state.md R26, 60_exceptions.md R231) -/

theorem ErrCause.code_ne_zero (c : ErrCause) : c.code ≠ 0 := by cases c <;> decide

theorem ErrCause.eq_keysNotValid_of_code_eq {c : ErrCause}
    (h : c.code = ErrCause.keysNotValid.code) : c = .keysNotValid := by
  cases c with
  | reservedOpcode | reservedField => exact absurd h (by decide)
  | keysNotValid => rfl

namespace State.StatusCoherent

variable {s t : State}

theorem of_sameStatus (hs : s.StatusCoherent) (h : SameStatus s t) : t.StatusCoherent := by
  obtain ⟨herr, hrkv, hec⟩ := h
  rwa [State.StatusCoherent, herr, hrkv, hec]

/-- A cleared STATUS is coherent. -/
theorem of_clear (herr : s.err = false) (hec : s.ecause = 0) (hrkv : s.rkv = false) :
    s.StatusCoherent :=
  ⟨iff_of_true herr hec, fun _ => hrkv⟩

/-- Whatever STATUS was before, a raise leaves it coherent; only cause 3 asks for `RKV = 0`. -/
theorem of_raiseCmdError {c : ErrCause} (hc : c = .keysNotValid → s.rkv = false) :
    (s.raiseCmdError c).StatusCoherent :=
  ⟨iff_of_false Bool.noConfusion c.code_ne_zero,
    fun h => hc (ErrCause.eq_keysNotValid_of_code_eq h)⟩

/-- RKV may be set while ERR is 0, because then no cause is recorded, so not cause 3. -/
theorem setCache (hs : s.StatusCoherent) (herr : s.err = false) (c : Vector Key 31) :
    (s.setCache c).StatusCoherent := by
  obtain ⟨hzero, -⟩ := hs
  exact ⟨hzero, fun h => absurd (h.symm.trans (hzero.mp herr)) (ErrCause.code_ne_zero _)⟩

/-- Every command, which runs only while ERR is 0 (R234), keeps STATUS coherent. -/
theorem of_effect {i : Instr} (hs : s.StatusCoherent) (herr : s.err = false) (h : Effect i s t) :
    t.StatusCoherent := by
  cases h with
  | word => exact hs.of_sameStatus (sameStatus_setReg ..)
  | block => exact hs.of_sameStatus (sameStatus_setBlock ..)
  | key => exact hs.of_sameStatus (sameStatus_setKey ..)
  | cache => exact hs.setCache herr _
  | cacheBlock => exact (hs.setCache herr _).of_sameStatus (sameStatus_setBlock ..)
  | badField => exact of_raiseCmdError nofun
  | notValid n hi hrkv => exact of_raiseCmdError fun _ => hrkv

/-- Taking an event off the host's list leaves STATUS, so each kind of step keeps it coherent as the
update it makes does. -/
theorem of_stepEffect (hs : s.StatusCoherent) (h : StepEffect s t) : t.StatusCoherent := by
  have hsh (es : List HostEvent) : (s.setHost es).StatusCoherent := hs
  cases h with
  | idle | read | ignored => exact hs
  | data a v es => exact (hsh es).of_sameStatus (sameStatus_dataWrite ..)
  | badWord w es e => cases e <;> exact of_raiseCmdError nofun
  | command w es i t _ herr _ hx => exact (hsh es).of_effect herr (.of_exec hx)
  | reset => exact of_clear rfl rfl rfl

end State.StatusCoherent

/-- Settles O56, by the case split over what a step can do. -/
theorem stepsKeepStatusCoherent : Obligations.StepsKeepStatusCoherent := by
  unfold Obligations.StepsKeepStatusCoherent
  intro s t hs h
  exact hs.of_stepEffect (.of_step h)

/-! ### Right after reset (10_state.md R35) -/

/-- While RKV is 0 nothing is claimed of the cache. -/
theorem State.CacheExpanded.of_not_rkv {s : State} (h : s.rkv = false) : s.CacheExpanded :=
  fun h' => absurd h' (Bool.eq_false_iff.mp h)

/-- Settles O58: reset clears the three status fields, and that is all either invariant asks. -/
theorem resetMeetsTheInvariants : Obligations.ResetMeetsTheInvariants :=
  ⟨.of_clear rfl rfl rfl, .of_not_rkv rfl⟩

/-- Settles O53: reset clears the three status fields and leaves no host event to come. -/
theorem resetClearsTheStatusAndWaits : Obligations.ResetClearsTheStatusAndWaits :=
  ⟨rfl, rfl, rfl, rfl, step_of_host_nil rfl⟩

/-! ### Key bits [127:64] do not enter a round (10_state.md R24, 42_round.md R184) -/

theorem exec_round (s : State) :
    exec .round s = .next (s.setBlock (roundFn Config.tables (s.l, s.r) (KL s.k) (KR s.k))) := rfl

theorem exec_iround (s : State) :
    exec .iround s = .next (s.setBlock (invRoundFn Config.tables (s.l, s.r) (KL s.k) (KR s.k))) := rfl

section LowKeyHalf

variable {k k' : Key} (h : k.extractLsb' 0 64 = k'.extractLsb' 0 64)
include h

/-- A field within the low 64 key bits depends on those bits alone. -/
theorem extractLsb'_congr_of_low {lo len : Nat} (hlen : lo + len ≤ 64) :
    k.extractLsb' lo len = k'.extractLsb' lo len := by
  have hfield := congrArg (BitVec.extractLsb' lo len) h
  rwa [BitVec.extractLsb'_extractLsb'_of_le hlen,
    BitVec.extractLsb'_extractLsb'_of_le hlen] at hfield

theorem KL_congr : KL k = KL k' := extractLsb'_congr_of_low h (by decide)

theorem KR_congr : KR k = KR k' := extractLsb'_congr_of_low h (by decide)

end LowKeyHalf

/-- Settles O28: ROUND and IROUND read K through KL and KR alone, and do not write it. -/
theorem upperKeyHalfDoesNotEnterARound : Obligations.UpperKeyHalfDoesNotEnterARound := by
  unfold Obligations.UpperKeyHalfDoesNotEnterARound
  rintro s k h i (rfl | rfl)
  · refine ⟨_, exec_round s, ?_⟩
    rw [exec_round, State.setKey_k, KL_congr h, KR_congr h]
    rfl
  · refine ⟨_, exec_iround s, ?_⟩
    rw [exec_iround, State.setKey_k, KL_congr h, KR_congr h]
    rfl

/-! ### Which commands write which part (10_state.md R21, R22, R26, R29) -/

/-- The part of the state a command writes when it raises nothing. -/
inductive Part where
  /-- One word register. -/
  | word
  /-- L and R. -/
  | block
  /-- K. -/
  | key
  /-- RKC and RKV. -/
  | cache
  /-- RKC, RKV, L and R. -/
  | cacheBlock

/-- The part each command of the opcode map writes (30_encoding.md R86). -/
def writtenPart : Instr → Part
  | .mov .. | .xor .. | .rol .. | .ror .. | .sbn .. | .isbn .. => .word
  | .sbw _ | .isbw _ | .gkl _ | .gkr _ => .word
  | .krol _ | .kror _ | .ksbn _ | .kisbn _ | .kxrc _ | .advk _ | .retk _ | .ldrk _ => .key
  | .round | .iround | .enc => .block
  | .kexp => .cache
  | .dec => .cacheBlock

/-- The states a command that writes part `p` can lead to. -/
inductive Writes (s : State) : Part → State → Prop where
  | word (rd : WordReg) (v : Word) : Writes s .word (s.setReg rd v)
  | block (b : Block) : Writes s .block (s.setBlock b)
  | key (k : Key) : Writes s .key (s.setKey k)
  | cache (c : Vector Key 31) : Writes s .cache (s.setCache c)
  | cacheBlock (c : Vector Key 31) (b : Block) : Writes s .cacheBlock ((s.setCache c).setBlock b)
  /-- A command that raises writes ERR and ECAUSE instead of its part. -/
  | raise (p : Part) (c : ErrCause) : Writes s p (s.raiseCmdError c)

theorem Writes.of_withImm {bound n : Nat} {s t : State} {p : Part} {f : Fin bound → State}
    (h : withImm bound n s f = .next t) (hf : ∀ k, Writes s p (f k)) : Writes s p t := by
  obtain ⟨hn, e⟩ | ⟨-, e⟩ := withImm_cases bound n s f
  · cases h.symm.trans e
    exact hf _
  · cases h.symm.trans e
    exact .raise ..

/-- A command writes its own part of the state, or raises. -/
theorem exec_writes {i : Instr} {s t : State} (h : exec i s = .next t) :
    Writes s (writtenPart i) t := by
  cases i with
  | mov | xor | sbw | isbw | gkl | gkr => cases h; exact .word ..
  | rol | ror | sbn | isbn =>
    simp only [exec_rol, exec_ror, exec_sbn, exec_isbn] at h
    exact .of_withImm h fun _ => .word ..
  | krol | kror | ksbn | kisbn | kxrc | advk | retk =>
    simp only [exec_krol, exec_kror, exec_ksbn, exec_kisbn, exec_kxrc, exec_advk, exec_retk] at h
    exact .of_withImm h fun _ => .key _
  | ldrk n =>
    rw [exec_ldrk] at h
    refine .of_withImm h fun k => ?_
    split
    · exact .key _
    · exact .raise ..
  | round | iround | enc => cases h; exact .block _
  | kexp => cases (exec_kexp s).symm.trans h; exact .cache _
  | dec => cases (exec_dec s).symm.trans h; exact .cacheBlock ..

namespace Writes

variable {s t : State} {p : Part}

theorem part_of_cache_ne (h : Writes s p t) (hne : t.rkc ≠ s.rkc ∨ t.rkv ≠ s.rkv) :
    p = .cache ∨ p = .cacheBlock := by
  cases h with
  | word | block | key | raise => simp at hne
  | cache => exact .inl rfl
  | cacheBlock => exact .inr rfl

theorem part_of_key_ne (h : Writes s p t) (hne : t.k ≠ s.k) : p = .key := by
  cases h with
  | word | block | cache | cacheBlock | raise => simp at hne
  | key => rfl

theorem t_eq (h : Writes s p t) (hp : p ≠ .word) : t.t = s.t := by
  cases h with
  | word => exact absurd rfl hp
  | block | key | cache | cacheBlock | raise => rfl

theorem sameHost (h : Writes s p t) : SameHost s t := by
  cases h with
  | word => simp [SameHost]
  | block | key | cache | cacheBlock | raise => exact ⟨rfl, rfl, rfl⟩

end Writes

theorem eq_kexp_or_dec_of_writtenPart {i : Instr}
    (h : writtenPart i = .cache ∨ writtenPart i = .cacheBlock) : i = .kexp ∨ i = .dec := by
  cases i <;> simp [writtenPart] at h ⊢

theorem exists_eq_of_writtenPart_key {i : Instr} (h : writtenPart i = .key) :
    ∃ n, i = .krol n ∨ i = .kror n ∨ i = .ksbn n ∨ i = .kisbn n ∨ i = .kxrc n ∨ i = .advk n ∨
      i = .retk n ∨ i = .ldrk n := by
  cases i <;> simp [writtenPart] at h ⊢

/-- Settles O40: a part that changed is the part the command writes. -/
theorem onlyTheNamedCommandsWriteEachPart : Obligations.OnlyTheNamedCommandsWriteEachPart := by
  unfold Obligations.OnlyTheNamedCommandsWriteEachPart
  intro i s t h
  have hw := exec_writes h
  refine ⟨fun hne => eq_kexp_or_dec_of_writtenPart (hw.part_of_cache_ne hne),
    fun hne => exists_eq_of_writtenPart_key (hw.part_of_key_ne hne), fun hi => ?_, hw.sameHost⟩
  have hp : writtenPart i ≠ .word := by
    obtain rfl | rfl | rfl | rfl | rfl := hi <;> nofun
  exact hw.t_eq hp

end Sys2Proof.Machine
end

section
/-! O42, O43, O46, O55 and O47: the register window and the host's side of a step (20_memory.md R50 to
R60). A read and a write are said once for each kind of register the map of R51 puts at an index; the
statements about the 16 indices follow from the map, and those about steps from `StepEffect`. -/

namespace Sys2Proof.Machine

open Sys2Proof.Claims

/-! ### The register map (20_memory.md R51) -/

theorem HostReg.ofIndex_of_val (a : Fin 16) :
    (a.val = 0 → ofIndex a = .cmd) ∧ (a.val = 1 → ofIndex a = .status) ∧
    (a.val = 2 → ofIndex a = .word .l) ∧ (a.val = 3 → ofIndex a = .word .r) ∧
    (a.val = 4 → ofIndex a = .word .t) ∧
    (a.val ∈ [5, 6, 7, 12, 13, 14, 15] → ofIndex a = .reserved) := by
  revert a; decide

theorem HostReg.ofIndex_key {a : Fin 16} (h8 : 8 ≤ a.val) (h11 : a.val ≤ 11) :
    ∃ q : Fin 4, q.val = a.val - 8 ∧ ofIndex a = .key q := by
  revert a; decide

/-- The indices of R53 that hold what is written to them. -/
theorem HostReg.ofIndex_word_or_key {a : Fin 16} (h : a.val ∈ [2, 3, 4, 8, 9, 10, 11]) :
    (∃ x, ofIndex a = .word x) ∨ ∃ q, ofIndex a = .key q := by
  have hne : ofIndex a ≠ .cmd ∧ ofIndex a ≠ .status ∧ ofIndex a ≠ .reserved := by
    revert a; decide
  obtain ⟨hcmd, hstatus, hreserved⟩ := hne
  cases hr : ofIndex a with
  | cmd => exact absurd hr hcmd
  | status => exact absurd hr hstatus
  | word x => exact .inl ⟨x, rfl⟩
  | key q => exact .inr ⟨q, rfl⟩
  | reserved => exact absurd hr hreserved

/-- Only the reserved indices share a register. -/
theorem HostReg.ofIndex_inj {a b : Fin 16} (ha : ofIndex a ≠ .reserved)
    (h : ofIndex b = ofIndex a) : b = a := by
  revert a b; decide

/-! ### What a read returns (R52) -/

section Read

variable (s : State) {a : Fin 16}

theorem State.regRead_of_cmd (h : HostReg.ofIndex a = .cmd) : s.regRead a = 0 := by
  simp only [State.regRead, h]

theorem State.regRead_of_status (h : HostReg.ofIndex a = .status) :
    s.regRead a = s.statusWord := by
  simp only [State.regRead, h]

theorem State.regRead_of_word {x : WordReg} (h : HostReg.ofIndex a = .word x) :
    s.regRead a = s.reg x := by
  simp only [State.regRead, h]

theorem State.regRead_of_key {q : Fin 4} (h : HostReg.ofIndex a = .key q) :
    s.regRead a = keyWord s.k q := by
  simp only [State.regRead, h]

theorem State.regRead_of_reserved (h : HostReg.ofIndex a = .reserved) : s.regRead a = 0 := by
  simp only [State.regRead, h]

/-- The bit positions of STATUS, as weights (10_state.md R28). -/
theorem State.toNat_statusWord :
    s.statusWord.toNat = s.ecause.toNat * 16 + s.rkv.toNat * 2 + s.err.toNat := by
  have fields : ∀ (c : BitVec 2) (rkv err : Bool),
      (0#26 ++ c ++ 0#2 ++ BitVec.ofBool rkv ++ BitVec.ofBool err).toNat =
        c.toNat * 16 + rkv.toNat * 2 + err.toNat := by decide
  exact fields s.ecause s.rkv s.err

/-- A read does not see the host's events. -/
@[simp] theorem State.regRead_setHost (es : List HostEvent) (a : Fin 16) :
    (s.setHost es).regRead a = s.regRead a := rfl

end Read

theorem regRead_key_of_val (s : State) {a : Fin 16} {n : Nat} (hn : n < 4) (h : a.val = 8 + n) :
    s.regRead a = s.k.extractLsb' (32 * n) 32 := by
  obtain ⟨q, hq, hr⟩ := HostReg.ofIndex_key (a := a) (by omega) (by omega)
  rw [s.regRead_of_key hr, keyWord, show q.val = n by omega]

/-- Settles O42, index by index along the map. -/
theorem readReturnsTheRegister : Obligations.ReadReturnsTheRegister := by
  unfold Obligations.ReadReturnsTheRegister
  intro s a
  obtain ⟨hcmd, hstatus, hl, hr, ht, hreserved⟩ := HostReg.ofIndex_of_val a
  refine ⟨fun h => s.regRead_of_cmd (hcmd h), fun h => ?_, fun h => s.regRead_of_word (hl h),
    fun h => s.regRead_of_word (hr h), fun h => s.regRead_of_word (ht h),
    regRead_key_of_val s (n := 0) (by decide), regRead_key_of_val s (n := 1) (by decide),
    regRead_key_of_val s (n := 2) (by decide), regRead_key_of_val s (n := 3) (by decide),
    fun h => s.regRead_of_reserved (hreserved h),
    _, rfl, s.reg_reply _, rfl, rfl, rfl, rfl, rfl⟩
  rw [s.regRead_of_status (hstatus h), s.toNat_statusWord]

/-! ### What a write does (R53) -/

section Write

variable (ex : Instr → State → Host.Outcome State Fault Refusal) (s : State) {a : Fin 16} (v : Word)

theorem regWrite_of_cmd (h : HostReg.ofIndex a = .cmd) :
    regWrite ex a v s = commandWrite ex v s := by
  simp only [regWrite, h]

theorem regWrite_of_status (h : HostReg.ofIndex a = .status) : regWrite ex a v s = .next s := by
  simp only [regWrite, State.dataWrite, h]

theorem regWrite_of_word {x : WordReg} (h : HostReg.ofIndex a = .word x) :
    regWrite ex a v s = .next (s.setReg x v) := by
  simp only [regWrite, State.dataWrite, h]

theorem regWrite_of_key {q : Fin 4} (h : HostReg.ofIndex a = .key q) :
    regWrite ex a v s = .next (s.setKey (setKeyWord s.k q v)) := by
  simp only [regWrite, State.dataWrite, h]

theorem regWrite_of_reserved (h : HostReg.ofIndex a = .reserved) :
    regWrite ex a v s = .next s := by
  simp only [regWrite, State.dataWrite, h]

/-- A write to CMD while the engine is faulted (60_exceptions.md R234). -/
theorem commandWrite_of_err (herr : s.err = true) : commandWrite ex v s = .next s := by
  simp only [commandWrite, herr, if_true]

theorem commandWrite_of_ok (herr : s.err = false) {i : Instr} (hd : decode v = .ok i) :
    commandWrite ex v s = ex i s := by
  simp [commandWrite, herr, hd]

theorem commandWrite_of_error (herr : s.err = false) {e : DecodeError}
    (hd : decode v = .error e) :
    commandWrite ex v s = .next (s.raiseCmdError (causeOfDecodeError e)) := by
  simp [commandWrite, herr, hd]

end Write

/-- The one exception, in the words of the statements (60_exceptions.md R233). -/
theorem raised_raiseCmdError (s : State) (c : ErrCause) : Raised c.code s (s.raiseCmdError c) :=
  ⟨rfl, rfl, rfl, s.reg_raiseCmdError c, rfl, rfl, rfl, rfl, rfl⟩

theorem raised_of_decodeError (s : State) (e : DecodeError) :
    Raised 1 s (s.raiseCmdError (causeOfDecodeError e)) ∨
      Raised 2 s (s.raiseCmdError (causeOfDecodeError e)) := by
  cases e with
  | reservedOpcode => exact .inl (raised_raiseCmdError s .reservedOpcode)
  | reservedField => exact .inr (raised_raiseCmdError s .reservedField)

/-- The bits of a key after the write of one word view (10_state.md R23). -/
theorem getLsbD_setKeyWord (k : Key) (q : Fin 4) (v : Word) (b : Nat) :
    (setKeyWord k q v).getLsbD b =
      if 32 * q.val ≤ b ∧ b < 32 * q.val + 32 then v.getLsbD (b - 32 * q.val)
      else k.getLsbD b :=
  getLsbD_replaceField k (32 * q.val) v (by omega) b

/-- Settles O43, index by index along the map. -/
theorem writeReplacesTheRegister : Obligations.WriteReplacesTheRegister := by
  unfold Obligations.WriteReplacesTheRegister
  intro s a v
  obtain ⟨hcmd, hstatus, hl, hr, ht, hreserved⟩ := HostReg.ofIndex_of_val a
  refine ⟨fun h herr => ?_, fun h herr i hd => ?_, fun h herr e hd => ?_,
    fun h => regWrite_of_word exec s v (hl h), fun h => regWrite_of_word exec s v (hr h),
    fun h => regWrite_of_word exec s v (ht h), fun h8 h11 => ?_, fun h => ?_⟩
  · rw [regWrite_of_cmd exec s v (hcmd h), commandWrite_of_err exec s v herr]
  · rw [regWrite_of_cmd exec s v (hcmd h), commandWrite_of_ok exec s v herr hd]
  · rw [regWrite_of_cmd exec s v (hcmd h), commandWrite_of_error exec s v herr hd]
    exact ⟨_, rfl, raised_of_decodeError s e⟩
  · obtain ⟨q, hq, hkey⟩ := HostReg.ofIndex_key h8 h11
    refine ⟨_, regWrite_of_key exec s v hkey, fun b _ => ?_⟩
    rw [getLsbD_setKeyWord, hq]
  · obtain h1 | hres := List.mem_cons.mp h
    · exact regWrite_of_status exec s v (hstatus h1)
    · exact regWrite_of_reserved exec s v (hreserved hres)

/-! ### A read after a write (R60) -/

section ReadAfterWrite

variable (s : State) {b : Fin 16} (v : Word)

/-- A write of a word register shows only at its own index. -/
theorem regRead_setReg_other {x : WordReg} (h : HostReg.ofIndex b ≠ .word x) :
    (s.setReg x v).regRead b = s.regRead b := by
  unfold State.regRead
  split
  next => rfl
  next => simp only [State.statusWord, State.setReg_ecause, State.setReg_rkv, State.setReg_err]
  next y hy => exact s.reg_setReg_other x y v fun e => h (e ▸ hy)
  next => rw [State.setReg_k]
  next => rfl

/-- A write of a key word shows only at its own index. -/
theorem regRead_setKeyWord_other {q : Fin 4} (h : HostReg.ofIndex b ≠ .key q) :
    (s.setKey (setKeyWord s.k q v)).regRead b = s.regRead b := by
  unfold State.regRead
  split
  next => rfl
  next => rfl
  next => rw [State.reg_setKey]
  next q' hq' => exact keyWord_setKeyWord_other s.k q q' v fun e => h (e ▸ hq')
  next => rfl

end ReadAfterWrite

/-- Settles O46: by the kind of register written, the index written reads back and, as no two
registers share an index, no other index shows the write. -/
theorem readAfterWriteReturnsIt : Obligations.ReadAfterWriteReturnsIt := by
  unfold Obligations.ReadAfterWriteReturnsIt
  intro s a b v ha
  obtain ⟨x, hx⟩ | ⟨q, hq⟩ := HostReg.ofIndex_word_or_key ha
  · refine ⟨_, regWrite_of_word exec s v hx, ?_⟩
    split
    next hba => rw [hba, State.regRead_of_word _ hx, State.reg_setReg_self]
    next hba =>
      exact regRead_setReg_other s v fun hb =>
        hba (HostReg.ofIndex_inj (by simp [hx]) (hb.trans hx.symm))
  · refine ⟨_, regWrite_of_key exec s v hq, ?_⟩
    split
    next hba => rw [hba, State.regRead_of_key _ hq, State.setKey_k, keyWord_setKeyWord_self]
    next hba =>
      exact regRead_setKeyWord_other s v fun hb =>
        hba (HostReg.ofIndex_inj (by simp [hq]) (hb.trans hq.symm))

/-! ### One event a step (R50) -/

/-- A step takes the host's next event. -/
theorem step_of_host_cons {s : State} {e : HostEvent} {es : List HostEvent}
    (h : s.host = e :: es) : step s = takeEvent exec e (s.setHost es) := by
  simp only [step, stepOver, h]

/-- Settles O47: each clause is the event's own case of `takeEvent`. -/
theorem stepTakesTheNextHostAccess : Obligations.StepTakesTheNextHostAccess := by
  unfold Obligations.StepTakesTheNextHostAccess
  intro s rest
  refine ⟨fun a h => ?_, fun a v h => ?_, fun h => ?_, step_of_host_nil⟩
  · rw [step_of_host_cons h, takeEvent, State.regRead_setHost]
  · rw [step_of_host_cons h, takeEvent]
  · rw [step_of_host_cons h, takeEvent]

/-- A data write leaves the host's side. -/
theorem sameHost_dataWrite (s : State) (a : Fin 16) (v : Word) : SameHost s (s.dataWrite a v) := by
  obtain h | ⟨x, -, h⟩ | ⟨q, -, h⟩ := dataWrite_cases s a v <;> rw [h]
  · exact ⟨rfl, rfl, rfl⟩
  · exact ⟨s.setReg_host x v, s.setReg_replies x v, s.setReg_resets x v⟩
  · exact ⟨rfl, rfl, rfl⟩

/-- The host's side over one step: the next event is taken off, and no reply is taken back. -/
def TakesOneEvent (s t : State) : Prop := t.host = s.host.tail ∧ s.replies <+: t.replies

namespace TakesOneEvent

variable {s t : State} {e : HostEvent} {es : List HostEvent}

/-- What follows once the event is off the list may leave the host's side alone. -/
theorem of_sameHost (h : s.host = e :: es) (ht : SameHost (s.setHost es) t) :
    TakesOneEvent s t := by
  obtain ⟨hhost, hreplies, -⟩ := ht
  exact ⟨by rw [hhost, h]; rfl, by rw [hreplies]; exact List.prefix_rfl⟩

/-- Only a read writes to the host's side, and it appends; a reset keeps both lists. -/
theorem of_stepEffect (h : StepEffect s t) : TakesOneEvent s t := by
  cases h with
  | idle h => exact ⟨by rw [h]; rfl, List.prefix_rfl⟩
  | read a es h => exact ⟨by rw [h]; rfl, List.prefix_append ..⟩
  | data a v es h _ => exact of_sameHost h (sameHost_dataWrite ..)
  | ignored w es h _ => exact of_sameHost h ⟨rfl, rfl, rfl⟩
  | badWord w es e h _ _ => exact of_sameHost h ⟨rfl, rfl, rfl⟩
  | command w es i t h _ _ hx => exact of_sameHost h (exec_writes hx).sameHost
  | reset es h => exact ⟨by rw [h]; rfl, List.prefix_rfl⟩

end TakesOneEvent

/-- Settles O55: every step answers a state (`step_effect`), each kind of which takes one event. -/
theorem everyStepCompletes : Obligations.EveryStepCompletes := by
  unfold Obligations.EveryStepCompletes
  intro s
  obtain ⟨t, hstep, heffect⟩ := step_effect s
  exact ⟨t, hstep, TakesOneEvent.of_stepEffect heffect⟩

end Sys2Proof.Machine
end

section
/-! O2, O3, O4 and O1: the two round trips of 30_encoding.md R86 and the classification of R85. Each
format decoder is read once, on the packed word of a command and, as `RowDecodes`, on an arbitrary
word of a row of the opcode map; the statements then follow row by row. -/

namespace Sys2Proof

open Sys2Proof.Claims

/-! ### A packed word decodes to its command, by format (R82)

Each lemma takes the row of the decoder that OP selects, `hrow`. -/

section DecodePackWord

variable {op : Nat}

theorem decode_packWord_n {i : Instr}
    (hrow : ∀ {w}, (fieldOp w).toNat = op → decode w = decodeN w i) (ho : op < 256 := by decide) :
    decode (packWord op 0 0 0) = .ok i := by
  have himm : 0 < 128 := by decide
  rw [hrow (fieldOp_packWord ho himm), decodeN_eq_ok]
  exact ⟨reservedZero_packWord ho himm, fieldRd_packWord ho himm, fieldRs_packWord ho himm,
    fieldImm_packWord ho himm, rfl⟩

theorem decode_packWord_r {mk : WordReg → Instr} (rd : WordReg)
    (hrow : ∀ {w}, (fieldOp w).toNat = op → decode w = decodeR w mk) (ho : op < 256 := by decide) :
    decode (packWord op (selectorOfReg rd) 0 0) = .ok (mk rd) := by
  have himm : 0 < 128 := by decide
  rw [hrow (fieldOp_packWord ho himm), decodeR_eq_ok, fieldRd_packWord ho himm]
  exact ⟨reservedZero_packWord ho himm, fieldRs_packWord ho himm, fieldImm_packWord ho himm, rd,
    regOfSelector_selectorOfReg rd, rfl⟩

theorem decode_packWord_rr {mk : WordReg → WordReg → Instr} (rd rs : WordReg)
    (hrow : ∀ {w}, (fieldOp w).toNat = op → decode w = decodeRR w mk) (ho : op < 256 := by decide) :
    decode (packWord op (selectorOfReg rd) (selectorOfReg rs) 0) = .ok (mk rd rs) := by
  have himm : 0 < 128 := by decide
  rw [hrow (fieldOp_packWord ho himm), decodeRR_eq_ok, fieldRd_packWord ho himm,
    fieldRs_packWord ho himm]
  exact ⟨reservedZero_packWord ho himm, fieldImm_packWord ho himm, rd, rs,
    regOfSelector_selectorOfReg rd, regOfSelector_selectorOfReg rs, rfl⟩

theorem decode_packWord_ri {hi n : Nat} {mk : WordReg → Nat → Instr} (rd : WordReg)
    (hrow : ∀ {w}, (fieldOp w).toNat = op → decode w = decodeRI w hi mk) (hn : n ≤ hi)
    (ho : op < 256 := by decide) (hhi : hi < 128 := by decide) :
    decode (packWord op (selectorOfReg rd) 0 n) = .ok (mk rd n) := by
  have himm := hn.trans_lt hhi
  rw [hrow (fieldOp_packWord ho himm), decodeRI_eq_ok, fieldRd_packWord ho himm,
    fieldImm_packWord ho himm]
  exact ⟨reservedZero_packWord ho himm, fieldRs_packWord ho himm, hn, rd,
    regOfSelector_selectorOfReg rd, rfl⟩

theorem decode_packWord_i {hi n : Nat} {mk : Nat → Instr}
    (hrow : ∀ {w}, (fieldOp w).toNat = op → decode w = decodeI w hi mk) (hn : n ≤ hi)
    (ho : op < 256 := by decide) (hhi : hi < 128 := by decide) :
    decode (packWord op 0 0 n) = .ok (mk n) := by
  have himm := hn.trans_lt hhi
  rw [hrow (fieldOp_packWord ho himm), decodeI_eq_ok, fieldImm_packWord ho himm]
  exact ⟨reservedZero_packWord ho himm, fieldRd_packWord ho himm, fieldRs_packWord ho himm, hn, rfl⟩

end DecodePackWord

/-- Settles O2: each command's word selects the command's own row, whose format decoder gives the
operands back. -/
theorem decodeOfEncodeIsTheCommand : Obligations.DecodeOfEncodeIsTheCommand := by
  unfold Obligations.DecodeOfEncodeIsTheCommand
  intro i hwf
  cases i with
  | mov rd rs => exact decode_packWord_rr rd rs decode_mov
  | xor rd rs => exact decode_packWord_rr rd rs decode_xor
  | rol rd n => exact decode_packWord_ri rd decode_rol hwf
  | ror rd n => exact decode_packWord_ri rd decode_ror hwf
  | sbn rd j => exact decode_packWord_ri rd decode_sbn hwf
  | isbn rd j => exact decode_packWord_ri rd decode_isbn hwf
  | sbw rd => exact decode_packWord_r rd decode_sbw
  | isbw rd => exact decode_packWord_r rd decode_isbw
  | gkl rd => exact decode_packWord_r rd decode_gkl
  | gkr rd => exact decode_packWord_r rd decode_gkr
  | krol n => exact decode_packWord_i decode_krol hwf
  | kror n => exact decode_packWord_i decode_kror hwf
  | ksbn j => exact decode_packWord_i decode_ksbn hwf
  | kisbn j => exact decode_packWord_i decode_kisbn hwf
  | kxrc i => exact decode_packWord_i decode_kxrc hwf
  | advk i => exact decode_packWord_i decode_advk hwf
  | retk i => exact decode_packWord_i decode_retk hwf
  | round => exact decode_packWord_n decode_round
  | iround => exact decode_packWord_n decode_iround
  | kexp => exact decode_packWord_n decode_kexp
  | ldrk i => exact decode_packWord_i decode_ldrk hwf
  | enc => exact decode_packWord_n decode_enc
  | dec => exact decode_packWord_n decode_dec

/-! ### The fields of an arbitrary word (R81, R85) -/

theorem reservedZero_iff {w : Word} : reservedZero w = true ↔ fieldZ2 w = 0 ∧ fieldZ1 w = 0 := by
  rw [reservedZero, Bool.and_eq_true, beq_iff_eq, beq_iff_eq, and_comm]

/-- 3 is the one selector that names no register (R84). -/
theorem selector_ne_three_iff (x : BitVec 2) : x ≠ 3 ↔ ∃ y, regOfSelector x = some y := by
  rw [← Option.isSome_iff_exists]
  revert x
  decide

/-- The check of R85 step 2 in the decoder's terms. -/
theorem fieldsLegal_iff {row : MapRow} {w : Word} :
    row.FieldsLegal w ↔ reservedZero w = true ∧
      (if row.usesRd then ∃ rd, regOfSelector (fieldRd w) = some rd else fieldRd w = 0) ∧
      (if row.usesRs then ∃ rs, regOfSelector (fieldRs w) = some rs else fieldRs w = 0) ∧
      (fieldImm w).toNat ≤ row.immMax := by
  rw [reservedZero_iff, and_assoc, ← selector_ne_three_iff, ← selector_ne_three_iff]
  rfl

/-! ### A format decoder has one reason to refuse a word (R85 step 2) -/

section Refusal

variable {w : Word} {e : DecodeError}

theorem eq_reservedField_of_decodeN {i : Instr} (h : decodeN w i = .error e) :
    e = .reservedField := by
  unfold decodeN at h
  split at h <;> cases h
  rfl

theorem eq_reservedField_of_decodeR {mk : WordReg → Instr} (h : decodeR w mk = .error e) :
    e = .reservedField := by
  unfold decodeR at h
  split at h
  · split at h <;> cases h
    rfl
  · cases h
    rfl

theorem eq_reservedField_of_decodeRR {mk : WordReg → WordReg → Instr}
    (h : decodeRR w mk = .error e) : e = .reservedField := by
  unfold decodeRR at h
  split at h
  · split at h <;> cases h
    rfl
  · cases h
    rfl

theorem eq_reservedField_of_decodeRI {hi : Nat} {mk : WordReg → Nat → Instr}
    (h : decodeRI w hi mk = .error e) : e = .reservedField := by
  unfold decodeRI at h
  split at h
  · split at h <;> cases h
    rfl
  · cases h
    rfl

theorem eq_reservedField_of_decodeI {hi : Nat} {mk : Nat → Instr}
    (h : decodeI w hi mk = .error e) : e = .reservedField := by
  unfold decodeI at h
  split at h <;> cases h
  rfl

end Refusal

/-! ### What a row of the opcode map decodes to -/

/-- On the word `w`, the outcome `d` is the row's: legal fields give the command whose word `w` is,
any other fields are refused as reserved (R85 step 2, R86). -/
structure RowDecodes (row : MapRow) (w : Word) (d : Except DecodeError Instr) : Prop where
  legal : row.FieldsLegal w → ∃ i, d = .ok i ∧ i.WellFormed ∧ encode i = w
  illegal : ¬ row.FieldsLegal w → d = .error .reservedField

namespace RowDecodes

variable {op hi : Nat} {row : MapRow} {w : Word} {d : Except DecodeError Instr}

/-- A decoder with one reason to refuse gives it wherever it does not decode. -/
theorem of_legal (hlegal : row.FieldsLegal w → ∃ i, d = .ok i ∧ i.WellFormed ∧ encode i = w)
    (hok : ∀ {i}, d = .ok i → row.FieldsLegal w) (herr : ∀ {e}, d = .error e → e = .reservedField) :
    RowDecodes row w d where
  legal := hlegal
  illegal h := by
    cases d with
    | ok i => exact absurd (hok rfl) h
    | error e => rw [herr rfl]

theorem formatN {i : Instr}
    (hrow : ∀ {w}, (fieldOp w).toNat = op → decode w = decodeN w i)
    (henc : i.WellFormed ∧ encode i = packWord op 0 0 0)
    (hop : op = opOf w) : RowDecodes ⟨op, false, false, 0⟩ w (decode w) := by
  have hop : (fieldOp w).toNat = op := hop.symm
  rw [hrow hop]
  refine of_legal (fun h => ?_) (fun h => ?_) eq_reservedField_of_decodeN
  · obtain ⟨hz, hrd, hrs, himm⟩ := fieldsLegal_iff.mp h
    have himm := Nat.le_zero.mp himm
    have hw := packWord_fields w hz
    rw [hop, hrd, hrs, himm, ← henc.2] at hw
    exact ⟨_, decodeN_eq_ok.mpr ⟨hz, hrd, hrs, himm, rfl⟩, henc.1, hw⟩
  · obtain ⟨hz, hrd, hrs, himm, -⟩ := decodeN_eq_ok.mp h
    exact fieldsLegal_iff.mpr ⟨hz, hrd, hrs, himm.le⟩

theorem formatR {mk : WordReg → Instr}
    (hrow : ∀ {w}, (fieldOp w).toNat = op → decode w = decodeR w mk)
    (henc : ∀ rd, (mk rd).WellFormed ∧ encode (mk rd) = packWord op (selectorOfReg rd) 0 0)
    (hop : op = opOf w) : RowDecodes ⟨op, true, false, 0⟩ w (decode w) := by
  have hop : (fieldOp w).toNat = op := hop.symm
  rw [hrow hop]
  refine of_legal (fun h => ?_) (fun h => ?_) eq_reservedField_of_decodeR
  · obtain ⟨hz, ⟨rd, hrd⟩, hrs, himm⟩ := fieldsLegal_iff.mp h
    have himm := Nat.le_zero.mp himm
    have hw := packWord_fields w hz
    rw [hop, ← selectorOfReg_of_regOfSelector hrd, hrs, himm, ← (henc rd).2] at hw
    exact ⟨_, decodeR_eq_ok.mpr ⟨hz, hrs, himm, rd, hrd, rfl⟩, (henc rd).1, hw⟩
  · obtain ⟨hz, hrs, himm, rd, hrd, -⟩ := decodeR_eq_ok.mp h
    exact fieldsLegal_iff.mpr ⟨hz, ⟨rd, hrd⟩, hrs, himm.le⟩

theorem formatRR {mk : WordReg → WordReg → Instr}
    (hrow : ∀ {w}, (fieldOp w).toNat = op → decode w = decodeRR w mk)
    (henc : ∀ rd rs, (mk rd rs).WellFormed ∧
      encode (mk rd rs) = packWord op (selectorOfReg rd) (selectorOfReg rs) 0)
    (hop : op = opOf w) : RowDecodes ⟨op, true, true, 0⟩ w (decode w) := by
  have hop : (fieldOp w).toNat = op := hop.symm
  rw [hrow hop]
  refine of_legal (fun h => ?_) (fun h => ?_) eq_reservedField_of_decodeRR
  · obtain ⟨hz, ⟨rd, hrd⟩, ⟨rs, hrs⟩, himm⟩ := fieldsLegal_iff.mp h
    have himm := Nat.le_zero.mp himm
    have hw := packWord_fields w hz
    rw [hop, ← selectorOfReg_of_regOfSelector hrd, ← selectorOfReg_of_regOfSelector hrs, himm,
      ← (henc rd rs).2] at hw
    exact ⟨_, decodeRR_eq_ok.mpr ⟨hz, himm, rd, rs, hrd, hrs, rfl⟩, (henc rd rs).1, hw⟩
  · obtain ⟨hz, himm, rd, rs, hrd, hrs, -⟩ := decodeRR_eq_ok.mp h
    exact fieldsLegal_iff.mpr ⟨hz, ⟨rd, hrd⟩, ⟨rs, hrs⟩, himm.le⟩

theorem formatRI {mk : WordReg → Nat → Instr}
    (hrow : ∀ {w}, (fieldOp w).toNat = op → decode w = decodeRI w hi mk)
    (henc : ∀ rd n, n ≤ hi →
      (mk rd n).WellFormed ∧ encode (mk rd n) = packWord op (selectorOfReg rd) 0 n)
    (hop : op = opOf w) : RowDecodes ⟨op, true, false, hi⟩ w (decode w) := by
  have hop : (fieldOp w).toNat = op := hop.symm
  rw [hrow hop]
  refine of_legal (fun h => ?_) (fun h => ?_) eq_reservedField_of_decodeRI
  · obtain ⟨hz, ⟨rd, hrd⟩, hrs, himm⟩ := fieldsLegal_iff.mp h
    obtain ⟨hwf, henc⟩ := henc rd _ himm
    have hw := packWord_fields w hz
    rw [hop, ← selectorOfReg_of_regOfSelector hrd, hrs, ← henc] at hw
    exact ⟨_, decodeRI_eq_ok.mpr ⟨hz, hrs, himm, rd, hrd, rfl⟩, hwf, hw⟩
  · obtain ⟨hz, hrs, himm, rd, hrd, -⟩ := decodeRI_eq_ok.mp h
    exact fieldsLegal_iff.mpr ⟨hz, ⟨rd, hrd⟩, hrs, himm⟩

theorem formatI {mk : Nat → Instr}
    (hrow : ∀ {w}, (fieldOp w).toNat = op → decode w = decodeI w hi mk)
    (henc : ∀ n, n ≤ hi → (mk n).WellFormed ∧ encode (mk n) = packWord op 0 0 n)
    (hop : op = opOf w) : RowDecodes ⟨op, false, false, hi⟩ w (decode w) := by
  have hop : (fieldOp w).toNat = op := hop.symm
  rw [hrow hop]
  refine of_legal (fun h => ?_) (fun h => ?_) eq_reservedField_of_decodeI
  · obtain ⟨hz, hrd, hrs, himm⟩ := fieldsLegal_iff.mp h
    obtain ⟨hwf, henc⟩ := henc _ himm
    have hw := packWord_fields w hz
    rw [hop, hrd, hrs, ← henc] at hw
    exact ⟨_, decodeI_eq_ok.mpr ⟨hz, hrd, hrs, himm, rfl⟩, hwf, hw⟩
  · obtain ⟨hz, hrd, hrs, himm, -⟩ := decodeI_eq_ok.mp h
    exact fieldsLegal_iff.mpr ⟨hz, hrd, hrs, himm⟩

end RowDecodes

/-- The decoder follows the opcode map (R86), row by row. -/
theorem rowDecodes_decode (w : Word) :
    ∀ row ∈ opcodeMap, row.op = opOf w → RowDecodes row w (decode w) := by
  simp only [opcodeMap, List.cons_append, List.nil_append, List.forall_mem_cons]
  exact ⟨.formatRR decode_mov fun _ _ => ⟨Nat.le_refl 0, rfl⟩,
    .formatRR decode_xor fun _ _ => ⟨Nat.le_refl 0, rfl⟩,
    .formatRI decode_rol fun _ _ h => ⟨h, rfl⟩,
    .formatRI decode_ror fun _ _ h => ⟨h, rfl⟩,
    .formatRI decode_sbn fun _ _ h => ⟨h, rfl⟩,
    .formatRI decode_isbn fun _ _ h => ⟨h, rfl⟩,
    .formatR decode_sbw fun _ => ⟨Nat.le_refl 0, rfl⟩,
    .formatR decode_isbw fun _ => ⟨Nat.le_refl 0, rfl⟩,
    .formatR decode_gkl fun _ => ⟨Nat.le_refl 0, rfl⟩,
    .formatR decode_gkr fun _ => ⟨Nat.le_refl 0, rfl⟩,
    .formatI decode_krol fun _ h => ⟨h, rfl⟩,
    .formatI decode_kror fun _ h => ⟨h, rfl⟩,
    .formatI decode_ksbn fun _ h => ⟨h, rfl⟩,
    .formatI decode_kisbn fun _ h => ⟨h, rfl⟩,
    .formatI decode_kxrc fun _ h => ⟨h, rfl⟩,
    .formatI decode_advk fun _ h => ⟨h, rfl⟩,
    .formatI decode_retk fun _ h => ⟨h, rfl⟩,
    .formatN decode_round ⟨Nat.le_refl 0, rfl⟩,
    .formatN decode_iround ⟨Nat.le_refl 0, rfl⟩,
    .formatN decode_kexp ⟨Nat.le_refl 0, rfl⟩,
    .formatI decode_ldrk fun _ h => ⟨h, rfl⟩,
    .formatN decode_enc ⟨Nat.le_refl 0, rfl⟩,
    .formatN decode_dec ⟨Nat.le_refl 0, rfl⟩,
    nofun⟩

/-- An OP in no row of the map is refused as such (R85 step 1). -/
theorem decode_of_no_row {w : Word} (h : ∀ row ∈ opcodeMap, row.op ≠ opOf w) :
    decode w = .error .reservedOpcode := by
  have hop : ∀ op ∈ opcodeMap.map MapRow.op, (fieldOp w).toNat ≠ op :=
    List.forall_mem_map.mpr fun row hrow => (h row hrow).symm
  unfold decode
  split
  case h_24 => rfl
  all_goals exact absurd ‹(fieldOp w).toNat = _› (hop _ (by decide))

/-- Settles O4, with one fact for each clause. -/
theorem decodeClassifiesEveryWord : Obligations.DecodeClassifiesEveryWord := by
  unfold Obligations.DecodeClassifiesEveryWord
  refine fun w => ⟨decode_of_no_row, fun row hrow hop => ?_⟩
  have hd := rowDecodes_decode w row hrow hop
  refine ⟨hd.illegal, fun hlegal => ?_⟩
  obtain ⟨i, hi, -⟩ := hd.legal hlegal
  exact ⟨i, hi⟩

/-- Settles O3: a word that decodes has an OP of the map and fields legal for its row. -/
theorem encodeOfDecodeIsTheWord : Obligations.EncodeOfDecodeIsTheWord := by
  unfold Obligations.EncodeOfDecodeIsTheWord
  intro w i hi
  by_cases hmap : ∃ row ∈ opcodeMap, row.op = opOf w
  · obtain ⟨row, hrow, hop⟩ := hmap
    have hd := rowDecodes_decode w row hrow hop
    by_cases hlegal : row.FieldsLegal w
    · obtain ⟨j, hj, hwf, henc⟩ := hd.legal hlegal
      cases hi.symm.trans hj
      exact ⟨hwf, henc⟩
    · cases hi.symm.trans (hd.illegal hlegal)
  · have hno : ∀ row ∈ opcodeMap, row.op ≠ opOf w := fun row hrow hop => hmap ⟨row, hrow, hop⟩
    cases hi.symm.trans (decode_of_no_row hno)

/-- Settles O1, by running the decoder on the twelve words. -/
theorem exampleWordsDecode : Obligations.ExampleWordsDecode := by
  unfold Obligations.ExampleWordsDecode
  decide

end Sys2Proof
end

section
/-! O39, O44 and O48: the immediate above its range (30_encoding.md R83), the cases of a write to CMD
(R85), and the step that takes a command word. -/

namespace Sys2Proof.Machine

open Sys2Proof.Claims

/-! ### An immediate above its range (R83) -/

theorem withImm_raises {bound n : Nat} (h : ¬ n < bound) (s : State) (f : Fin bound → State) :
    ∃ t, withImm bound n s f = .next t ∧ Raised 2 s t :=
  ⟨_, withImm_of_not_lt h s f, raised_raiseCmdError s .reservedField⟩

/-- Settles O39: a command with an immediate is `withImm` at its bound, and one without is
well-formed. -/
theorem immediateAboveRangeRaises : Obligations.ImmediateAboveRangeRaises := by
  unfold Obligations.ImmediateAboveRangeRaises
  intro i s h
  cases i with
  | mov | xor | sbw | isbw | gkl | gkr | round | iround | kexp | enc | dec =>
    exact absurd (Nat.le_refl 0) h
  | rol | ror | sbn | isbn | krol | kror | ksbn | kisbn | kxrc | advk | retk | ldrk =>
    simp only [exec_rol, exec_ror, exec_sbn, exec_isbn, exec_krol, exec_kror, exec_ksbn, exec_kisbn,
      exec_kxrc, exec_advk, exec_retk, exec_ldrk]
    exact withImm_raises (h ∘ Nat.le_of_lt_succ) s _

/-! ### The cases of a write to CMD (R85) -/

/-- An admitted command leaves ERR (60_exceptions.md R230). -/
theorem Effect.err_eq {i : Instr} {s t : State} (h : Effect i s t) (hwf : i.WellFormed)
    (hldrk : ∀ n, i = .ldrk n → s.rkv = true) : t.err = s.err := by
  cases h with
  | word rd v => exact s.setReg_err rd v
  | block b => exact s.setBlock_err b
  | key k => exact s.setKey_err k
  | cache => exact s.setCache_err _
  | cacheBlock b => rw [State.setBlock_err, State.setCache_err]
  | badField h => exact absurd hwf h
  | notValid n hi h => exact absurd (hldrk n hi) (Bool.eq_false_iff.mp h)

theorem exec_err_eq {i : Instr} {s : State} (hwf : i.WellFormed)
    (hldrk : ∀ n, i = .ldrk n → s.rkv = true) : ∃ t, exec i s = .next t ∧ t.err = s.err := by
  obtain ⟨t, ht, heffect⟩ := exec_effect i s
  exact ⟨t, ht, heffect.err_eq hwf hldrk⟩

/-- LDRK while `RKV = 0`, its index legal (43_drivers.md R213). -/
theorem exec_ldrk_raises {n : Nat} {s : State} (hwf : (Instr.ldrk n).WellFormed)
    (hrkv : s.rkv = false) : ∃ t, exec (.ldrk n) s = .next t ∧ Raised 3 s t := by
  refine ⟨_, ?_, raised_raiseCmdError s .keysNotValid⟩
  have hn : n < 31 := Nat.lt_succ_of_le hwf
  rw [exec_ldrk, withImm_of_lt hn, if_neg (Bool.eq_false_iff.mp hrkv)]

/-- The words with the OP of LDRK are those of LDRK (R86). -/
theorem exists_eq_ldrk_iff {w : Word} {i : Instr} (h : decode w = .ok i) :
    (∃ n, i = .ldrk n) ↔ opOf w = 0x29 := by
  constructor
  · rintro ⟨n, rfl⟩
    obtain ⟨hwf, henc⟩ := encodeOfDecodeIsTheWord w _ h
    have hn : n < 31 := Nat.lt_succ_of_le hwf
    rw [← henc]
    exact fieldOp_packWord (by decide) (hn.trans (by decide))
  · intro hop
    obtain ⟨-, -, -, -, hi⟩ := decodeI_eq_ok.mp ((decode_ldrk hop).symm.trans h)
    exact ⟨_, hi⟩

section CommandWrite

variable (s : State) (w : Word)

theorem regWrite_zero_of_ok (herr : s.err = false) {i : Instr} (hd : decode w = .ok i) :
    regWrite exec 0 w s = exec i s :=
  (regWrite_of_cmd exec s w rfl).trans (commandWrite_of_ok exec s w herr hd)

theorem regWrite_zero_of_error (herr : s.err = false) {e : DecodeError}
    (hd : decode w = .error e) :
    ∃ t, regWrite exec 0 w s = .next t ∧ Raised (causeOfDecodeError e).code s t :=
  ⟨_, (regWrite_of_cmd exec s w rfl).trans (commandWrite_of_error exec s w herr hd),
    raised_raiseCmdError s _⟩

end CommandWrite

/-- Settles O44, one case of R85 after the other: no row, an illegal field, LDRK while `RKV = 0`,
and the command whose word `w` is. -/
theorem commandWriteDecodesAndAdmits : Obligations.CommandWriteDecodesAndAdmits := by
  unfold Obligations.CommandWriteDecodesAndAdmits
  refine fun s w herr => ⟨fun h => regWrite_zero_of_error s w herr (decode_of_no_row h),
    fun row hrow hop => ?_⟩
  have hd := rowDecodes_decode w row hrow hop
  refine ⟨fun h => regWrite_zero_of_error s w herr (hd.illegal h), fun h h29 hrkv => ?_,
    fun h hrkv => ?_⟩
  · obtain ⟨i, hi, hwf, -⟩ := hd.legal h
    obtain ⟨n, rfl⟩ := (exists_eq_ldrk_iff hi).mpr (hop.symm.trans h29)
    rw [regWrite_zero_of_ok s w herr hi]
    exact exec_ldrk_raises hwf hrkv
  · obtain ⟨i, hi, hwf, henc⟩ := hd.legal h
    have hldrk : ∀ n, i = .ldrk n → s.rkv = true := fun n hn =>
      hrkv (hop.trans ((exists_eq_ldrk_iff hi).mp ⟨n, hn⟩))
    obtain ⟨t, ht, hterr⟩ := exec_err_eq hwf hldrk
    exact ⟨i, t, henc, hwf, regWrite_zero_of_ok s w herr hi, ht, hterr.trans herr⟩

/-- Settles O48: the step takes the write, and the write is of a word that decodes. -/
theorem stepRunsTheDecodedCommand : Obligations.StepRunsTheDecodedCommand := by
  unfold Obligations.StepRunsTheDecodedCommand
  intro s w rest i hnext herr hd
  rw [step_of_host_cons hnext]
  exact regWrite_zero_of_ok (s.setHost rest) w herr hd

end Sys2Proof.Machine
end

section
/-! O51 and O52: the transcripts of 30_encoding.md R91. A run of steps that keep ERR (`QuietRun`) is
proved once for each part of a transcript, from every state; it is a run of the machine, and a safe
run from a state that is not faulted. -/

namespace Sys2Proof.Machine

open Sys2Proof.Claims

/-! ### Runs that keep ERR -/

theorem run_succ_of_step {M : Host.Core} {k : Nat} {s s' : M.State} (h : M.step s = .next s') :
    M.run (k + 1) s = M.run k s' := by
  rw [Host.Core.run.eq_def]
  simp only [h]

/-- `k` steps lead from the first state to the second, none of them changing ERR. -/
inductive QuietRun : Nat → State → State → Prop where
  | nil (s : State) : QuietRun 0 s s
  | cons {k : Nat} {s s' t : State} (hstep : step s = .next s') (herr : s'.err = s.err)
      (hrun : QuietRun k s' t) : QuietRun (k + 1) s t

namespace QuietRun

variable {k m : Nat} {s t u : State}

theorem one (hstep : step s = .next t) (herr : t.err = s.err) : QuietRun 1 s t :=
  .cons hstep herr (.nil t)

theorem append (h : QuietRun k s t) (h' : QuietRun m t u) : QuietRun (m + k) s u := by
  induction h with
  | nil => exact h'
  | cons hstep herr _ ih => exact .cons hstep herr (ih h')

/-- A quiet run is a run of the machine. -/
theorem run (h : QuietRun k s t) : Host.Core.run core k s = .next t := by
  induction h with
  | nil => rfl
  | @cons k s s' t hstep _ _ ih =>
    have hcore : core.step s = .next s' := hstep
    exact (run_succ_of_step hcore).trans ih

/-- From a state that is not faulted a quiet run is safe (60_exceptions.md R234). -/
theorem safeRun (h : QuietRun k s t) (hs : s.err = false) : SafeRun k s t := by
  induction h with
  | nil => exact ⟨Bool.eq_false_iff.mp hs, rfl⟩
  | cons hstep herr _ ih =>
    exact ⟨Bool.eq_false_iff.mp hs, _, hstep, ih (herr.trans hs)⟩

end QuietRun

/-! ### One access -/

section Access

variable {s : State} {a : Fin 16} {v : Word} {rest : List HostEvent}

theorem quietRun_write_word {x : WordReg} (ha : HostReg.ofIndex a = .word x)
    (h : s.host = .write a v :: rest) : QuietRun 1 s ((s.setHost rest).setReg x v) :=
  .one ((step_of_host_cons h).trans (regWrite_of_word exec _ v ha)) (State.setReg_err ..)

theorem quietRun_write_key {q : Fin 4} (ha : HostReg.ofIndex a = .key q)
    (h : s.host = .write a v :: rest) :
    QuietRun 1 s ((s.setHost rest).setKey (setKeyWord s.k q v)) :=
  .one ((step_of_host_cons h).trans (regWrite_of_key exec _ v ha)) rfl

theorem quietRun_read_word {x : WordReg} (ha : HostReg.ofIndex a = .word x)
    (h : s.host = .read a :: rest) : QuietRun 1 s ((s.setHost rest).reply (s.reg x)) := by
  rw [← s.regRead_of_word ha]
  exact .one (step_of_host_cons h) rfl

/-- The word of a command is that command to a machine that is not faulted (R85). -/
theorem quietRun_cmd {i : Instr} {t : State} (hwf : i.WellFormed) (h : s.host = cmd i :: rest)
    (hs : s.err = false) (hexec : exec i (s.setHost rest) = .next t) (ht : t.err = s.err) :
    QuietRun 1 s t :=
  .one ((stepRunsTheDecodedCommand s _ rest i h hs (decodeOfEncodeIsTheCommand i hwf)).trans hexec)
    ht

end Access

/-! ### `setkey`: the four words of a key (R91, 10_state.md R23) -/

theorem HostReg.ofIndex_keyIndex (q : Fin 4) : ofIndex (Fin.ofNat 16 (8 + q.val)) = .key q := by
  revert q
  decide

/-- The write of word `q` of `key`. -/
def keyWrite (key : Key) (q : Fin 4) : HostEvent :=
  .write (Fin.ofNat 16 (8 + q.val)) (keyWord key q)

theorem setkey_eq (key : Key) : setkey key = [0, 1, 2, 3].map (keyWrite key) := rfl

/-- What the writes of the given words of `key` leave of the key `k`. -/
def writeKeyWords (key : Key) (qs : List (Fin 4)) (k : Key) : Key :=
  qs.foldl (fun k q => setKeyWord k q (keyWord key q)) k

/-- Four words make a key. -/
theorem eq_of_keyWord_eq {k k' : Key} (h : ∀ q, keyWord k q = keyWord k' q) : k = k' := by
  apply BitVec.eq_of_getLsbD_eq
  intro b hb
  have hq : b / 32 < 4 := by omega
  have hbit := congrArg (BitVec.getLsbD · (b % 32)) (h ⟨b / 32, hq⟩)
  have hlt : b % 32 < 32 := Nat.mod_lt _ (by decide)
  simpa only [keyWord, BitVec.getLsbD_extractLsb', hlt, decide_true, Bool.true_and,
    Nat.div_add_mod] using hbit

/-- A word written stays, as no other word's write and no second write of its own changes it. -/
theorem keyWord_writeKeyWords (key : Key) (qs : List (Fin 4)) (k : Key) {q : Fin 4}
    (hq : q ∈ qs ∨ keyWord k q = keyWord key q) :
    keyWord (writeKeyWords key qs k) q = keyWord key q := by
  induction qs generalizing k with
  | nil => exact hq.resolve_left List.not_mem_nil
  | cons p qs ih =>
    refine ih (setKeyWord k p (keyWord key p)) ?_
    by_cases hp : q = p
    · subst hp
      exact .inr (keyWord_setKeyWord_self k q _)
    · rw [keyWord_setKeyWord_other k p q _ hp]
      exact hq.imp_left fun h => (List.mem_cons.mp h).resolve_left hp

/-- All four words, in any order, make the whole key, whatever K held. -/
theorem writeKeyWords_of_forall_mem {qs : List (Fin 4)} (h : ∀ q, q ∈ qs) (key k : Key) :
    writeKeyWords key qs k = key :=
  eq_of_keyWord_eq fun q => keyWord_writeKeyWords key qs k (.inl (h q))

theorem quietRun_keyWrites (key : Key) (qs : List (Fin 4)) {s : State} {rest : List HostEvent}
    (h : s.host = qs.map (keyWrite key) ++ rest) :
    QuietRun qs.length s ((s.setHost rest).setKey (writeKeyWords key qs s.k)) := by
  induction qs generalizing s with
  | nil =>
    have hs : (s.setHost rest).setKey s.k = s := by rw [← show s.host = rest from h]; rfl
    exact hs.symm ▸ .nil s
  | cons q qs ih =>
    exact (quietRun_write_key (HostReg.ofIndex_keyIndex q) h).append (ih rfl)

theorem quietRun_setkey (key : Key) {qs : List (Fin 4)} (hqs : qs.Perm [0, 1, 2, 3]) {s : State}
    {rest : List HostEvent} (h : s.host = qs.map (keyWrite key) ++ rest) :
    QuietRun 4 s ((s.setHost rest).setKey key) := by
  have hall : ∀ q, q ∈ qs := fun q => hqs.mem_iff.mpr (by revert q; decide)
  have hrun := quietRun_keyWrites key qs h
  rwa [hqs.length_eq, writeKeyWords_of_forall_mem hall] at hrun

/-- Settles O51: the four writes are a quiet run, in any order, to the whole key. -/
theorem setkeyWritesTheWholeKey : Obligations.SetkeyWritesTheWholeKey := by
  unfold Obligations.SetkeyWritesTheWholeKey
  intro s key qs rest hqs h
  exact (quietRun_setkey key hqs h).run

/-! ### `setblk` and `getblk` (R91) -/

section Block

variable {s : State} {rest : List HostEvent}

theorem quietRun_setblk (b : Block) (h : s.host = setblk b ++ rest) :
    QuietRun 2 s ((s.setHost rest).setBlock b) :=
  (quietRun_write_word (x := .l) rfl h).append (quietRun_write_word (x := .r) rfl rfl)

theorem quietRun_getblk (h : s.host = getblk ++ rest) :
    QuietRun 2 s (((s.setHost rest).reply s.l).reply s.r) :=
  (quietRun_read_word (x := .l) rfl h).append (quietRun_read_word (x := .r) (rest := rest) rfl rfl)

end Block

/-! ### A whole transcript -/

/-- The command replaces the block by `f` of the key and the block; it leaves K, ERR and the host's
side. -/
def ReplacesBlock (i : Instr) (f : Key → Block → Block) : Prop :=
  ∀ s : State, ∃ t, exec i s = .next t ∧ (t.l, t.r) = f s.k (s.l, s.r) ∧ t.k = s.k ∧
    t.err = s.err ∧ SameHost s t

theorem replacesBlock_enc : ReplacesBlock .enc (encrypt Config.tables) :=
  fun s => ⟨_, exec_enc s, by simp [SameHost]⟩

theorem replacesBlock_dec : ReplacesBlock .dec (decrypt Config.tables) :=
  fun s => ⟨_, exec_dec s, by simp [SameHost]⟩

/-- The transcript of R91 around a command that replaces the block answers the new block. -/
theorem ReplacesBlock.transcript {i : Instr} {f : Key → Block → Block} (hf : ReplacesBlock i f)
    (hwf : i.WellFormed) {s : State} (hs : s.err = false) (key : Key) (b : Block)
    {rest : List HostEvent}
    (h : s.host = setkey key ++ setblk b ++ [cmd i] ++ getblk ++ rest) :
    ∃ t, SafeRun 9 s t ∧ t.host = rest ∧ t.k = key ∧
      t.replies = s.replies ++ [(f key b).1, (f key b).2] := by
  obtain ⟨u, hexec, hblock, hk, herr, hhost, hreplies, -⟩ :=
    hf (((s.setHost (getblk ++ rest)).setKey key).setBlock b)
  have hkey := quietRun_setkey key .rfl (rest := setblk b ++ cmd i :: getblk ++ rest) (by
    rw [h, setkey_eq]; simp only [List.append_assoc, List.cons_append, List.nil_append])
  have hblk := hkey.append (quietRun_setblk b (rest := cmd i :: getblk ++ rest) rfl)
  have hcmd := hblk.append (quietRun_cmd hwf rfl hs hexec herr)
  have hrun := hcmd.append (quietRun_getblk hhost)
  refine ⟨_, hrun.safeRun hs, rfl, hk, ?_⟩
  have hblock : (u.l, u.r) = f key b := hblock
  have hreplies : u.replies = s.replies := hreplies
  simp only [State.reply_replies, State.setHost_replies, hreplies, ← hblock, List.append_assoc,
    List.cons_append, List.nil_append]

/-- Settles O52: ENC and DEC each replace the block, by `encrypt` and by `decrypt` under K. -/
theorem transcriptsComputeEncryptAndDecrypt : Obligations.TranscriptsComputeEncryptAndDecrypt := by
  unfold Obligations.TranscriptsComputeEncryptAndDecrypt
  intro s key b rest hs
  exact ⟨replacesBlock_enc.transcript (Nat.le_refl 0) hs key b,
    replacesBlock_dec.transcript (Nat.le_refl 0) hs key b⟩

end Sys2Proof.Machine
end

section
/-! O5 to O14 and O59: the word commands (40_word_primitives.md R118 to R129) and the inverse laws of
R115 on the machine. Each command that replaces a register by a function of its old value is said to
do so once (`MapsReg`); the inverse laws and the order of the SBN commands are proved of any such
command. -/

namespace Sys2Proof.Machine

open Sys2Proof.Claims

/-! ### One register written -/

/-- A write of `rd` meets the frame of a word command (R118). -/
theorem onlyWord_setReg (s : State) (rd : WordReg) (v : Word) : OnlyWord rd s (s.setReg rd v) :=
  ⟨fun x h => s.reg_setReg_other rd x v h, s.setReg_k rd v, s.setReg_rkc rd v, sameStatus_setReg ..,
    s.setReg_host rd v, s.setReg_replies rd v, s.setReg_resets rd v⟩

theorem State.setReg_of_eq {s : State} {rd : WordReg} {v : Word} (h : v = s.reg rd) :
    s.setReg rd v = s := by
  rw [h, s.setReg_reg]

/-! ### The commands that copy into a register -/

theorem exec_mov (rd rs : WordReg) (s : State) :
    exec (.mov rd rs) s = .next (s.setReg rd (s.reg rs)) := rfl

theorem exec_xor (rd rs : WordReg) (s : State) :
    exec (.xor rd rs) s = .next (s.setReg rd (s.reg rd ^^^ s.reg rs)) := rfl

theorem exec_gkl (rd : WordReg) (s : State) :
    exec (.gkl rd) s = .next (s.setReg rd (KL s.k)) := rfl

theorem exec_gkr (rd : WordReg) (s : State) :
    exec (.gkr rd) s = .next (s.setReg rd (KR s.k)) := rfl

/-- Settles O5: the value written is the old value of `rs`. -/
theorem movCopiesTheSource : Obligations.MovCopiesTheSource := by
  unfold Obligations.MovCopiesTheSource
  intro rd rs s
  refine ⟨_, exec_mov rd rs s, s.reg_setReg_self rd _, onlyWord_setReg .., ?_⟩
  rintro rfl
  exact s.setReg_reg rd

/-- Settles O6, the two corner cases by the laws of R116. -/
theorem xorCombinesBitwise : Obligations.XorCombinesBitwise := by
  unfold Obligations.XorCombinesBitwise
  intro rd rs s
  refine ⟨_, exec_xor rd rs s, ?_, onlyWord_setReg .., ?_, fun hrs => ?_⟩
  · intro b _
    rw [State.reg_setReg_self, BitVec.getLsbD_xor]
  · rintro rfl
    rw [State.reg_setReg_self, BitVec.xor_self]
  · exact State.setReg_of_eq (by rw [hrs, BitVec.xor_zero])

/-- The bits of `KL` (10_state.md R24). -/
theorem getLsbD_KL (k : Key) {b : Nat} (hb : b < 32) : (KL k).getLsbD b = k.getLsbD (32 + b) := by
  simp [KL, hb]

/-- The bits of `KR` (R24). -/
theorem getLsbD_KR (k : Key) {b : Nat} (hb : b < 32) : (KR k).getLsbD b = k.getLsbD b := by
  simp [KR, hb]

/-- Settles O13: the value written is `KL` of the key. -/
theorem gklReadsTheUpperSubKey : Obligations.GklReadsTheUpperSubKey := by
  unfold Obligations.GklReadsTheUpperSubKey
  intro rd s
  refine ⟨_, exec_gkl rd s, fun b hb => ?_, onlyWord_setReg ..⟩
  rw [State.reg_setReg_self, getLsbD_KL s.k hb]

/-- Settles O14: the value written is `KR` of the key. -/
theorem gkrReadsTheLowerSubKey : Obligations.GkrReadsTheLowerSubKey := by
  unfold Obligations.GkrReadsTheLowerSubKey
  intro rd s
  refine ⟨_, exec_gkr rd s, fun b hb => ?_, onlyWord_setReg ..⟩
  rw [State.reg_setReg_self, getLsbD_KR s.k hb]

/-! ### The commands that map a register -/

/-- In every state the command replaces `rd` by `f` of its old value and does nothing else. -/
def MapsReg (i : Instr) (rd : WordReg) (f : Word → Word) : Prop :=
  ∀ s : State, exec i s = .next (s.setReg rd (f (s.reg rd)))

theorem mapsReg_rol (rd : WordReg) {n : Nat} (h : n < 32) : MapsReg (.rol rd n) rd (rotl · n) :=
  fun s => (exec_rol rd n s).trans (withImm_of_lt h s _)

theorem mapsReg_ror (rd : WordReg) {n : Nat} (h : n < 32) : MapsReg (.ror rd n) rd (rotr · n) :=
  fun s => (exec_ror rd n s).trans (withImm_of_lt h s _)

theorem mapsReg_sbn (rd : WordReg) {j : Nat} (h : j < 8) :
    MapsReg (.sbn rd j) rd (mapNibble Config.tables.sbox j) :=
  fun s => (exec_sbn rd j s).trans (withImm_of_lt h s _)

theorem mapsReg_isbn (rd : WordReg) {j : Nat} (h : j < 8) :
    MapsReg (.isbn rd j) rd (mapNibble (sboxInv Config.tables) j) :=
  fun s => (exec_isbn rd j s).trans (withImm_of_lt h s _)

theorem mapsReg_sbw (rd : WordReg) : MapsReg (.sbw rd) rd (substituteWord Config.tables) :=
  fun _ => rfl

theorem mapsReg_isbw (rd : WordReg) : MapsReg (.isbw rd) rd (invSubstituteWord Config.tables) :=
  fun _ => rfl

/-- In every state the command replaces K by `f` of its old value and does nothing else. -/
def MapsKey (i : Instr) (f : Key → Key) : Prop :=
  ∀ s : State, exec i s = .next (s.setKey (f s.k))

theorem mapsKey_krol {n : Nat} (h : n < 128) : MapsKey (.krol n) (rotl · n) :=
  fun s => (exec_krol n s).trans (withImm_of_lt h s _)

theorem mapsKey_kror {n : Nat} (h : n < 128) : MapsKey (.kror n) (rotr · n) :=
  fun s => (exec_kror n s).trans (withImm_of_lt h s _)

/-! ### Commands in turn -/

theorem execAll_cons_of_next {i : Instr} {s t : State} (h : exec i s = .next t) (is : List Instr) :
    execAll (i :: is) s = execAll is t := by
  simp only [execAll, h]

/-- A command that maps `rd` by `g` undoes one that maps it by `f`, when `g` undoes `f`. -/
theorem MapsReg.undo {i j : Instr} {rd : WordReg} {f g : Word → Word} (hi : MapsReg i rd f)
    (hj : MapsReg j rd g) (hgf : ∀ x, g (f x) = x) (s : State) : execAll [i, j] s = .next s := by
  rw [execAll_cons_of_next (hi s), execAll_cons_of_next (hj _), State.reg_setReg_self, hgf,
    State.setReg_setReg, State.setReg_reg, execAll]

/-- The same of two commands that map K. -/
theorem MapsKey.undo {i j : Instr} {f g : Key → Key} (hi : MapsKey i f) (hj : MapsKey j g)
    (hgf : ∀ x, g (f x) = x) (s : State) : execAll [i, j] s = .next s := by
  rw [execAll_cons_of_next (hi s), execAll_cons_of_next (hj _), State.setKey_k, hgf]
  rfl

/-! ### Rotation (R112, R113, R122, R123) -/

/-- A left rotation moves bit `b` to bit `(b + n) mod N` (R112). -/
theorem getLsbD_rotl_add_mod {N : Nat} (x : BitVec N) {n b : Nat} (hn : n < N) (hb : b < N) :
    (rotl x n).getLsbD ((b + n) % N) = x.getLsbD b := by
  rw [← getLsbD_rotr _ n b hn hb, rotr_rotl x n hn]

theorem rotl_zero {N : Nat} (x : BitVec N) : rotl x 0 = x := by
  apply BitVec.eq_of_getLsbD_eq
  intro i hi
  rw [getLsbD_rotl x 0 i (Nat.zero_lt_of_lt hi) hi]
  simp [Nat.mod_eq_of_lt hi]

theorem rotr_zero {N : Nat} (x : BitVec N) : rotr x 0 = x := by
  apply BitVec.eq_of_getLsbD_eq
  intro i hi
  rw [getLsbD_rotr x 0 i (Nat.zero_lt_of_lt hi) hi]
  simp [Nat.mod_eq_of_lt hi]

/-- Settles O7: within the range by the bits of `rotl`, above it by O39. -/
theorem rolMovesEachBitUp : Obligations.RolMovesEachBitUp := by
  unfold Obligations.RolMovesEachBitUp
  intro rd n s
  refine ⟨fun hn => ?_, fun hn => immediateAboveRangeRaises _ s (Nat.not_le.mpr hn)⟩
  have hn : n < 32 := Nat.lt_succ_of_le hn
  refine ⟨_, mapsReg_rol rd hn s, fun b hb => ?_, onlyWord_setReg .., ?_⟩
  · rw [State.reg_setReg_self, getLsbD_rotl_add_mod _ hn hb]
  · rintro rfl
    exact State.setReg_of_eq (rotl_zero _)

/-- Settles O8: within the range by the bits of `rotr`, above it by O39. -/
theorem rorMovesEachBitDown : Obligations.RorMovesEachBitDown := by
  unfold Obligations.RorMovesEachBitDown
  intro rd n s
  refine ⟨fun hn => ?_, fun hn => immediateAboveRangeRaises _ s (Nat.not_le.mpr hn)⟩
  have hn : n < 32 := Nat.lt_succ_of_le hn
  refine ⟨_, mapsReg_ror rd hn s, fun b hb => ?_, onlyWord_setReg .., ?_⟩
  · rw [State.reg_setReg_self, getLsbD_rotr _ _ _ hn hb]
  · rintro rfl
    exact State.setReg_of_eq (rotr_zero _)

/-! ### Substitution of a word (R126, R127) -/

/-- Settles O11 by the nibbles of `mapNibbles`. -/
theorem sbwSubstitutesEveryNibble : Obligations.SbwSubstitutesEveryNibble := by
  unfold Obligations.SbwSubstitutesEveryNibble
  intro rd s
  refine ⟨_, mapsReg_sbw rd s, fun j hj => ?_, onlyWord_setReg ..⟩
  rw [State.reg_setReg_self]
  exact nibble_mapNibbles _ _ j hj

theorem execAll_sbw_isbw (rd : WordReg) (s : State) : execAll [.sbw rd, .isbw rd] s = .next s :=
  (mapsReg_sbw rd).undo (mapsReg_isbw rd) (invSubstituteWord_substituteWord _) s

theorem execAll_isbw_sbw (rd : WordReg) (s : State) : execAll [.isbw rd, .sbw rd] s = .next s :=
  (mapsReg_isbw rd).undo (mapsReg_sbw rd) (substituteWord_invSubstituteWord _) s

/-- Settles O12: each new nibble is SBOX_INV of the old one, which SBOX sends back. -/
theorem isbwSubstitutesBackEveryNibble : Obligations.IsbwSubstitutesBackEveryNibble := by
  unfold Obligations.IsbwSubstitutesBackEveryNibble
  intro rd s
  refine ⟨⟨_, mapsReg_isbw rd s, fun j hj => ?_, onlyWord_setReg ..⟩, execAll_sbw_isbw rd s,
    execAll_isbw_sbw rd s⟩
  have hnib : nibble (invSubstituteWord Config.tables (s.reg rd)) j =
      sboxInv Config.tables (nibble (s.reg rd) j) := nibble_mapNibbles _ _ j hj
  rw [State.reg_setReg_self, ← nibble, hnib, sbox_sboxInv, nibble]

/-- Settles O59 from the inverse laws of the pure functions (R115). -/
theorem primitivesUndoEachOther : Obligations.PrimitivesUndoEachOther := by
  unfold Obligations.PrimitivesUndoEachOther
  intro rd s
  refine ⟨execAll_sbw_isbw rd s, execAll_isbw_sbw rd s, fun n hn => ?_, fun n hn => ?_⟩
  · have hn : n < 32 := Nat.lt_succ_of_le hn
    have hl := mapsReg_rol rd hn
    have hr := mapsReg_ror rd hn
    refine ⟨hl.undo hr (rotr_rotl · n hn) s, hr.undo hl (rotl_rotr · n hn) s, ?_⟩
    rw [hr s, mapsReg_rol rd (Nat.mod_lt _ (by decide)) s]
    simp only [rotr_eq_rotl _ n hn]
  · have hn : n < 128 := Nat.lt_succ_of_le hn
    have hl := mapsKey_krol hn
    have hr := mapsKey_kror hn
    refine ⟨hl.undo hr (rotr_rotl · n hn) s, hr.undo hl (rotl_rotr · n hn) s, ?_⟩
    rw [hr s, mapsKey_krol (Nat.mod_lt _ (by decide)) s]
    simp only [rotr_eq_rotl _ n hn]

/-! ### Substitution of one nibble (R124, R125) -/

/-- `mapNibble` leaves the bits outside nibble `j`. -/
theorem getLsbD_mapNibble_of_outside {n : Nat} (f : Nibble → Nibble) {j b : Nat} (v : BitVec n)
    (h : 4 * j + 4 ≤ n) (hb : ¬ (4 * j ≤ b ∧ b ≤ 4 * j + 3)) :
    (mapNibble f j v).getLsbD b = v.getLsbD b := by
  rw [getLsbD_mapNibble f j v h, if_neg (by omega)]

/-- The nibbles of `js` mapped by `f`, one after another. -/
def mapNibblesAt (f : Nibble → Nibble) : List Nat → Word → Word
  | [], w => w
  | j :: js, w => mapNibblesAt f js (mapNibble f j w)

/-- With no index twice, exactly the nibbles of `js` are mapped, each once. -/
theorem nibble_mapNibblesAt (f : Nibble → Nibble) {js : List Nat} (hnodup : js.Nodup)
    (hlt : ∀ j ∈ js, j < 8) (w : Word) (j : Nat) :
    nibble (mapNibblesAt f js w) j = if j ∈ js then f (nibble w j) else nibble w j := by
  induction js generalizing w with
  | nil => rfl
  | cons k js ih =>
    obtain ⟨hk, hnodup⟩ := List.nodup_cons.mp hnodup
    obtain ⟨hk8, hlt⟩ := List.forall_mem_cons.mp hlt
    rw [mapNibblesAt, ih hnodup hlt]
    obtain rfl | hne := eq_or_ne j k
    · rw [if_neg hk, if_pos List.mem_cons_self, nibble_mapNibble_self f j w (by omega)]
    · simp only [nibble_mapNibble_other f k j w (by omega) hne, List.mem_cons, hne, false_or]

/-- All eight nibbles mapped in any order are `mapNibbles`. -/
theorem mapNibblesAt_eq_mapNibbles (f : Nibble → Nibble) {js : List Nat}
    (h : js.Perm (List.range 8)) (w : Word) : mapNibblesAt f js w = mapNibbles f w := by
  have hmem : ∀ j, j ∈ js ↔ j < 8 := fun j => h.mem_iff.trans List.mem_range
  apply eq_of_nibble_eq (n := 8)
  intro j hj
  rw [nibble_mapNibblesAt f (h.nodup_iff.mpr List.nodup_range) (fun j => (hmem j).mp) w,
    if_pos ((hmem j).mpr hj), nibble_mapNibbles f w j hj]

/-- A sequence of SBN commands maps the nibbles it names in turn. -/
theorem execAll_map_sbn (rd : WordReg) {js : List Nat} (hlt : ∀ j ∈ js, j < 8) (s : State) :
    execAll (js.map (.sbn rd)) s =
      .next (s.setReg rd (mapNibblesAt Config.tables.sbox js (s.reg rd))) := by
  induction js generalizing s with
  | nil => exact congrArg _ (s.setReg_reg rd).symm
  | cons j js ih =>
    obtain ⟨hj, hlt⟩ := List.forall_mem_cons.mp hlt
    rw [List.map_cons, execAll_cons_of_next (mapsReg_sbn rd hj s), ih hlt, State.reg_setReg_self,
      State.setReg_setReg, mapNibblesAt]

/-- Settles O9, the any-order equality by the nibbles of the result. -/
theorem sbnSubstitutesOneNibble : Obligations.SbnSubstitutesOneNibble := by
  unfold Obligations.SbnSubstitutesOneNibble
  intro rd s
  refine ⟨fun j hj => ?_, fun j hj => immediateAboveRangeRaises _ s (Nat.not_le.mpr hj),
    fun js hjs => ?_⟩
  · refine ⟨_, mapsReg_sbn rd (by omega) s, ?_, fun b _ hb => ?_, onlyWord_setReg ..⟩
    · rw [State.reg_setReg_self]
      exact nibble_mapNibble_self _ j _ (by omega)
    · rw [State.reg_setReg_self, getLsbD_mapNibble_of_outside _ _ (by omega) hb]
  · have hlt : ∀ j ∈ js, j < 8 := fun j h => List.mem_range.mp (hjs.mem_iff.mp h)
    rw [execAll_map_sbn rd hlt, mapNibblesAt_eq_mapNibbles _ hjs, mapsReg_sbw rd s, substituteWord]

/-- Settles O10: the new nibble is SBOX_INV of the old one, which SBOX sends back. -/
theorem isbnSubstitutesBackOneNibble : Obligations.IsbnSubstitutesBackOneNibble := by
  unfold Obligations.IsbnSubstitutesBackOneNibble
  intro rd j s
  refine ⟨fun hj => ?_, fun hj => immediateAboveRangeRaises _ s (Nat.not_le.mpr hj)⟩
  have hfit : 4 * j + 4 ≤ 32 := by omega
  have hsbn := mapsReg_sbn rd (Nat.lt_succ_of_le hj)
  have hisbn := mapsReg_isbn rd (Nat.lt_succ_of_le hj)
  refine ⟨⟨_, hisbn s, ?_, fun b _ hb => ?_, onlyWord_setReg ..⟩,
    hsbn.undo hisbn (mapNibble_mapNibble _ _ (sboxInv_sbox _) j · hfit) s,
    hisbn.undo hsbn (mapNibble_mapNibble _ _ (sbox_sboxInv _) j · hfit) s⟩
  · rw [State.reg_setReg_self, ← nibble, nibble_mapNibble_self _ j _ hfit, sbox_sboxInv, nibble]
  · rw [State.reg_setReg_self, getLsbD_mapNibble_of_outside _ _ hfit hb]

end Sys2Proof.Machine
end

section
/-! O15 to O22 and O60: the key commands (41_key_schedule.md R150 to R167). Each is said once to map K
(`MapsKey`). What `advance_key` does is read off its fields; what `retreat_key` does is the same facts
read backward, because `advance_key` undoes it (R153). -/

namespace Sys2Proof.Machine

open Sys2Proof.Claims

/-! ### Only K written -/

/-- A write of K meets the frame of a key command (R155). -/
theorem onlyKey_setKey (s : State) (k : Key) : OnlyKey s (s.setKey k) :=
  ⟨s.reg_setKey k, s.setKey_rkc k, sameStatus_setKey s k, s.setKey_host k, s.setKey_replies k,
    s.setKey_resets k⟩

theorem State.setKey_of_eq {s : State} {k : Key} (h : k = s.k) : s.setKey k = s := by
  rw [h]
  rfl

theorem State.setKey_setKey (s : State) (k k' : Key) : (s.setKey k).setKey k' = s.setKey k' := rfl

/-! ### The commands as maps of K -/

theorem mapsKey_ksbn {j : Nat} (h : j < 32) : MapsKey (.ksbn j) (mapNibble Config.tables.sbox j) :=
  fun s => (exec_ksbn j s).trans (withImm_of_lt h s _)

theorem mapsKey_kisbn {j : Nat} (h : j < 32) :
    MapsKey (.kisbn j) (mapNibble (sboxInv Config.tables) j) :=
  fun s => (exec_kisbn j s).trans (withImm_of_lt h s _)

theorem mapsKey_kxrc (i : Fin 31) : MapsKey (.kxrc i) (foldRc · (Config.tables.rc i)) :=
  fun s => (exec_kxrc i s).trans (withImm_of_lt i.isLt s _)

/-- ADVK over any tables (R165). -/
theorem execWith_advk (tb : Tables) (i : Fin 31) (s : State) :
    execWith tb (.advk i) s = .next (s.setKey (advanceKey tb s.k (tb.rc i))) :=
  withImm_of_lt i.isLt s fun i => s.setKey (advanceKey tb s.k (tb.rc i))

/-- RETK over any tables (R166). -/
theorem execWith_retk (tb : Tables) (i : Fin 31) (s : State) :
    execWith tb (.retk i) s = .next (s.setKey (retreatKey tb s.k (tb.rc i))) :=
  withImm_of_lt i.isLt s fun i => s.setKey (retreatKey tb s.k (tb.rc i))

theorem mapsKey_advk (i : Fin 31) :
    MapsKey (.advk i) (advanceKey Config.tables · (Config.tables.rc i)) :=
  fun s => (exec_eq_execWith _ s).trans (execWith_advk Config.tables i s)

theorem mapsKey_retk (i : Fin 31) :
    MapsKey (.retk i) (retreatKey Config.tables · (Config.tables.rc i)) :=
  fun s => (exec_eq_execWith _ s).trans (execWith_retk Config.tables i s)

/-- Three key commands in turn map K by their three functions in turn. -/
theorem MapsKey.execAll_three {i₁ i₂ i₃ : Instr} {f₁ f₂ f₃ : Key → Key} (h₁ : MapsKey i₁ f₁)
    (h₂ : MapsKey i₂ f₂) (h₃ : MapsKey i₃ f₃) (s : State) :
    execAll [i₁, i₂, i₃] s = .next (s.setKey (f₃ (f₂ (f₁ s.k)))) := by
  rw [execAll_cons_of_next (h₁ s), execAll_cons_of_next (h₂ _), execAll_cons_of_next (h₃ _),
    execAll]
  simp only [State.setKey_k, State.setKey_setKey]

/-! ### Rotation of the key (R160, R161) -/

/-- A word decodes to a command within its range only (30_encoding.md R85). -/
theorem wellFormed_of_decode {w : Word} {i : Instr} (h : decode w = .ok i) : i.WellFormed := by
  obtain ⟨hwf, -⟩ := encodeOfDecodeIsTheWord w i h
  exact hwf

/-- Settles O15: the bits by those of `rotl`, the amounts of words by O3. -/
theorem krolMovesEachKeyBitUp : Obligations.KrolMovesEachKeyBitUp := by
  unfold Obligations.KrolMovesEachKeyBitUp
  refine ⟨fun n s hn => ?_, fun w n h => wellFormed_of_decode h⟩
  have hn : n < 128 := Nat.lt_succ_of_le hn
  refine ⟨_, mapsKey_krol hn s, fun b hb => ?_, onlyKey_setKey .., ?_⟩
  · rw [State.setKey_k, getLsbD_rotl_add_mod _ hn hb]
  · rintro rfl
    exact State.setKey_of_eq (rotl_zero _)

/-- Settles O16: the bits by those of `rotr`, the amounts of words by O3. -/
theorem krorMovesEachKeyBitDown : Obligations.KrorMovesEachKeyBitDown := by
  unfold Obligations.KrorMovesEachKeyBitDown
  refine ⟨fun n s hn => ?_, fun w n h => wellFormed_of_decode h⟩
  have hn : n < 128 := Nat.lt_succ_of_le hn
  refine ⟨_, mapsKey_kror hn s, fun b hb => ?_, onlyKey_setKey .., ?_⟩
  · rw [State.setKey_k, getLsbD_rotr _ _ _ hn hb]
  · rintro rfl
    exact State.setKey_of_eq (rotr_zero _)

/-! ### Substitution of one key nibble (R162, R163) -/

/-- Settles O17 by the nibble and the other bits of `mapNibble`; above the range by O39. -/
theorem ksbnSubstitutesOneKeyNibble : Obligations.KsbnSubstitutesOneKeyNibble := by
  unfold Obligations.KsbnSubstitutesOneKeyNibble
  intro j s
  refine ⟨fun hj => ?_, fun hj => immediateAboveRangeRaises _ s (Nat.not_le.mpr hj)⟩
  have hfit : 4 * j + 4 ≤ 128 := by omega
  refine ⟨_, mapsKey_ksbn (Nat.lt_succ_of_le hj) s, ?_, fun b _ hb => ?_, onlyKey_setKey ..⟩
  · rw [State.setKey_k]
    exact nibble_mapNibble_self _ j s.k hfit
  · rw [State.setKey_k, getLsbD_mapNibble_of_outside _ _ hfit hb]

/-- Settles O18: the new nibble is SBOX_INV of the old one, which SBOX sends back. -/
theorem kisbnSubstitutesBackOneKeyNibble : Obligations.KisbnSubstitutesBackOneKeyNibble := by
  unfold Obligations.KisbnSubstitutesBackOneKeyNibble
  intro j s
  refine ⟨fun hj => ?_, fun hj => immediateAboveRangeRaises _ s (Nat.not_le.mpr hj)⟩
  have hfit : 4 * j + 4 ≤ 128 := by omega
  have hksbn := mapsKey_ksbn (Nat.lt_succ_of_le hj)
  have hkisbn := mapsKey_kisbn (Nat.lt_succ_of_le hj)
  refine ⟨⟨_, hkisbn s, ?_, fun b _ hb => ?_, onlyKey_setKey ..⟩,
    hksbn.undo hkisbn (mapNibble_mapNibble _ _ (sboxInv_sbox _) j · hfit) s,
    hkisbn.undo hksbn (mapNibble_mapNibble _ _ (sbox_sboxInv _) j · hfit) s⟩
  · rw [State.setKey_k, ← nibble, nibble_mapNibble_self _ j _ hfit, sbox_sboxInv, nibble]
  · rw [State.setKey_k, getLsbD_mapNibble_of_outside _ _ hfit hb]

/-! ### The fold of a constant (R152, R164) -/

/-- The constant's bit `c` meets key bit `59 + c` (R152). -/
theorem getLsbD_foldRc_field (k : Key) (rc : Byte) {c : Nat} (hc : c < 5) :
    (foldRc k rc).getLsbD (59 + c) = (k.getLsbD (59 + c) != rc.getLsbD c) := by
  rw [getLsbD_foldRc, if_pos (by omega), Nat.add_sub_cancel_left]

/-- `fold_rc` leaves the bits outside [63:59] (R152). -/
theorem getLsbD_foldRc_of_outside (k : Key) (rc : Byte) {b : Nat} (hb : ¬ (59 ≤ b ∧ b ≤ 63)) :
    (foldRc k rc).getLsbD b = k.getLsbD b := by
  rw [getLsbD_foldRc, if_neg (by omega)]

/-- Settles O19 by the bits of `fold_rc`; above the range by O39. -/
theorem kxrcFoldsTheRoundConstant : Obligations.KxrcFoldsTheRoundConstant := by
  unfold Obligations.KxrcFoldsTheRoundConstant
  refine fun s => ⟨fun i => ?_, fun i hi => immediateAboveRangeRaises _ s (Nat.not_le.mpr hi)⟩
  have hkxrc := mapsKey_kxrc i
  refine ⟨⟨_, hkxrc s, fun c hc => ?_, fun b _ hb => ?_, onlyKey_setKey ..⟩,
    hkxrc.undo hkxrc (foldRc_foldRc · _) s⟩
  · rw [State.setKey_k, getLsbD_foldRc_field _ _ hc]
  · rw [State.setKey_k, getLsbD_foldRc_of_outside _ _ hb]

/-! ### Fields after a replacement and after a rotation -/

/-- The field just replaced (00_scope.md R9). -/
theorem extractLsb'_replaceField_self {n m lo : Nat} (v : BitVec n) (e : BitVec m)
    (h : lo + m ≤ n) : (replaceField v lo e).extractLsb' lo m = e := by
  apply BitVec.eq_of_getLsbD_eq
  intro i hi
  rw [BitVec.getLsbD_extractLsb', getLsbD_replaceField v lo e h, if_pos (by omega),
    Nat.add_sub_cancel_left, decide_eq_true hi, Bool.true_and]

/-- A field that does not meet the replaced one (R9). -/
theorem extractLsb'_replaceField_of_disjoint {n m lo lo' len : Nat} (v : BitVec n) (e : BitVec m)
    (h : lo + m ≤ n) (hdisjoint : lo' + len ≤ lo ∨ lo + m ≤ lo') :
    (replaceField v lo e).extractLsb' lo' len = v.extractLsb' lo' len := by
  apply BitVec.eq_of_getLsbD_eq
  intro i hi
  rw [BitVec.getLsbD_extractLsb', BitVec.getLsbD_extractLsb', getLsbD_replaceField v lo e h,
    if_neg (by omega)]

/-- A left rotation moves a field as its lowest bit, when it does not wrap (R112). -/
theorem extractLsb'_rotl {N n src dst len : Nat} (x : BitVec N) (hn : n < N)
    (hdst : (src + n) % N = dst) (hs : src + len ≤ N) (hd : dst + len ≤ N) :
    (rotl x n).extractLsb' dst len = x.extractLsb' src len := by
  apply BitVec.eq_of_getLsbD_eq
  intro c hc
  have hbit : (src + c + n) % N = dst + c := by
    rw [Nat.add_right_comm, ← Nat.mod_add_mod, hdst, Nat.mod_eq_of_lt (by omega)]
  rw [BitVec.getLsbD_extractLsb', BitVec.getLsbD_extractLsb', ← hbit,
    getLsbD_rotl_add_mod x hn (by omega)]

/-! ### `advance_key`, field by field (R150) -/

section AdvanceKey

variable (tb : Tables) (k : Key) (rc : Byte)

/-- Nibble 1 is SBOX of `k[122:119]`; the fold does not meet it. -/
theorem extractLsb'_advanceKey_nibble :
    (advanceKey tb k rc).extractLsb' 4 4 = tb.sbox (k.extractLsb' 119 4) := by
  have hsub := nibble_mapNibble_self tb.sbox 1 (rotl k 13) (by decide)
  have hrot : nibble (rotl k 13) 1 = k.extractLsb' 119 4 :=
    extractLsb'_rotl k (by decide) (by decide) (by decide) (by decide)
  rw [advanceKey, foldRc, extractLsb'_replaceField_of_disjoint _ _ (by decide) (by decide)]
  exact hsub.trans (congrArg tb.sbox hrot)

/-- Bits [63:59] are `k[50:46]` with the constant folded in; the substitution does not meet them. -/
theorem extractLsb'_advanceKey_field :
    (advanceKey tb k rc).extractLsb' 59 5 = k.extractLsb' 46 5 ^^^ rc.extractLsb' 0 5 := by
  rw [advanceKey, foldRc, extractLsb'_replaceField_self _ _ (by decide), mapNibble,
    extractLsb'_replaceField_of_disjoint _ _ (by decide) (by decide),
    extractLsb'_rotl k (src := 46) (by decide) (by decide) (by decide) (by decide)]

/-- Every other bit is rotated only. -/
theorem getLsbD_advanceKey_of_outside {b : Nat} (hb : b < 128) (hnibble : ¬ (4 ≤ b ∧ b ≤ 7))
    (hfield : ¬ (59 ≤ b ∧ b ≤ 63)) :
    (advanceKey tb k rc).getLsbD b = k.getLsbD ((b + 115) % 128) := by
  rw [advanceKey, getLsbD_foldRc_of_outside _ _ hfield,
    getLsbD_mapNibble_of_outside _ _ (by decide) hnibble, getLsbD_rotl _ _ _ (by decide) hb]

end AdvanceKey

/-- Settles O20 by the fields of `advance_key`; above the range by O39. -/
theorem advkAdvancesTheKey : Obligations.AdvkAdvancesTheKey := by
  unfold Obligations.AdvkAdvancesTheKey
  refine fun s => ⟨fun i => ?_, fun i hi => immediateAboveRangeRaises _ s (Nat.not_le.mpr hi)⟩
  exact ⟨_, mapsKey_advk i s, extractLsb'_advanceKey_nibble .., extractLsb'_advanceKey_field ..,
    fun b hb => getLsbD_advanceKey_of_outside _ _ _ hb, onlyKey_setKey ..⟩

/-! ### `retreat_key`, the same fields read backward (R151) -/

section RetreatKey

variable (tb : Tables) (k : Key) (rc : Byte)

theorem sbox_extractLsb'_retreatKey_nibble :
    tb.sbox ((retreatKey tb k rc).extractLsb' 119 4) = k.extractLsb' 4 4 := by
  rw [← extractLsb'_advanceKey_nibble tb _ rc, advanceKey_retreatKey]

theorem extractLsb'_retreatKey_field :
    (retreatKey tb k rc).extractLsb' 46 5 = k.extractLsb' 59 5 ^^^ rc.extractLsb' 0 5 := by
  have hfield := extractLsb'_advanceKey_field tb (retreatKey tb k rc) rc
  rw [advanceKey_retreatKey] at hfield
  rw [hfield, BitVec.xor_assoc, BitVec.xor_self, BitVec.xor_zero]

theorem getLsbD_retreatKey_of_outside {b : Nat} (hb : b < 128) (hnibble : ¬ (119 ≤ b ∧ b ≤ 122))
    (hfield : ¬ (46 ≤ b ∧ b ≤ 50)) :
    (retreatKey tb k rc).getLsbD b = k.getLsbD ((b + 13) % 128) := by
  have hbit := getLsbD_advanceKey_of_outside tb (retreatKey tb k rc) rc (b := (b + 13) % 128)
    (by omega) (by omega) (by omega)
  rw [advanceKey_retreatKey, show ((b + 13) % 128 + 115) % 128 = b by omega] at hbit
  exact hbit.symm

end RetreatKey

/-- Settles O21 by the fields of `retreat_key` and R153; above the range by O39. -/
theorem retkRetreatsTheKey : Obligations.RetkRetreatsTheKey := by
  unfold Obligations.RetkRetreatsTheKey
  refine fun s => ⟨fun i => ?_, fun i hi => immediateAboveRangeRaises _ s (Nat.not_le.mpr hi)⟩
  have hadvk := mapsKey_advk i
  have hretk := mapsKey_retk i
  exact ⟨⟨_, hretk s, sbox_extractLsb'_retreatKey_nibble .., extractLsb'_retreatKey_field ..,
      fun b hb => getLsbD_retreatKey_of_outside _ _ _ hb, onlyKey_setKey ..⟩,
    hadvk.undo hretk (retreatKey_advanceKey _ · _) s,
    hretk.undo hadvk (advanceKey_retreatKey _ · _) s⟩

/-! ### The key updates by their steps, and over any constant (R167, R153) -/

/-- Settles O22: the three steps are the definitions of the two key updates, the exchange is
`foldRc_mapNibble`. -/
theorem keyUpdatesAreTheirThreeSteps : Obligations.KeyUpdatesAreTheirThreeSteps := by
  unfold Obligations.KeyUpdatesAreTheirThreeSteps
  intro i s
  have hkrol := mapsKey_krol (n := 13) (by decide)
  have hkror := mapsKey_kror (n := 13) (by decide)
  have hksbn := mapsKey_ksbn (j := 1) (by decide)
  have hkisbn := mapsKey_kisbn (j := 1) (by decide)
  have hkxrc := mapsKey_kxrc i
  rw [mapsKey_advk i s, mapsKey_retk i s]
  refine ⟨hkrol.execAll_three hksbn hkxrc s, ?_, hkxrc.execAll_three hkisbn hkror s⟩
  rw [hkrol.execAll_three hkxrc hksbn s, ← foldRc_mapNibble]
  rfl

/-- Settles O60 from the inverse laws of the two functions, which hold over any tables. -/
theorem scheduleInverseLawForEveryConstant : Obligations.ScheduleInverseLawForEveryConstant := by
  unfold Obligations.ScheduleInverseLawForEveryConstant
  intro sbox rc i s tb
  have hra := retreatKey_advanceKey tb s.k rc
  have har := advanceKey_retreatKey tb s.k rc
  refine ⟨⟨_, execWith_advk tb i s, rfl, hra, ?_⟩, ⟨_, execWith_retk tb i s, rfl, har, ?_⟩⟩
  · rw [execWith_retk, State.setKey_setKey]
    exact congrArg _ (State.setKey_of_eq hra)
  · rw [execWith_advk, State.setKey_setKey]
    exact congrArg _ (State.setKey_of_eq har)

end Sys2Proof.Machine
end

section
/-! O24 to O27: the round commands (42_round.md R180 to R188). Each is said once to map the block
under the key (`MapsBlock`), so they undo each other by R182. The sequences of R187 and R188 are run in
stages, each stage a lemma that says what the registers hold after it. -/

namespace Sys2Proof.Machine

open Sys2Proof.Claims

/-! ### Only the block written -/

/-- A write of the block meets the frame of a round command (R184). -/
theorem onlyBlock_setBlock (s : State) (b : Block) : OnlyBlock s (s.setBlock b) :=
  ⟨s.setBlock_t b, s.setBlock_k b, s.setBlock_rkc b, sameStatus_setBlock s b, s.setBlock_host b,
    s.setBlock_replies b, s.setBlock_resets b⟩

theorem State.setBlock_of_eq {s : State} {b : Block} (h : b = (s.l, s.r)) : s.setBlock b = s := by
  rw [h]
  rfl

theorem State.setBlock_setBlock (s : State) (b b' : Block) :
    (s.setBlock b).setBlock b' = s.setBlock b' := rfl

/-! ### The commands as maps of the block -/

/-- In every state the command replaces the block by `f` of K and the block and does no more. -/
def MapsBlock (i : Instr) (f : Key → Block → Block) : Prop :=
  ∀ s : State, exec i s = .next (s.setBlock (f s.k (s.l, s.r)))

theorem mapsBlock_round : MapsBlock .round fun k b => roundFn Config.tables b (KL k) (KR k) :=
  exec_round

theorem mapsBlock_iround : MapsBlock .iround fun k b => invRoundFn Config.tables b (KL k) (KR k) :=
  exec_iround

/-- A command that maps the block by `g` undoes one that maps it by `f`, when `g` undoes `f` under
the same key. -/
theorem MapsBlock.undo {i j : Instr} {f g : Key → Block → Block} (hi : MapsBlock i f)
    (hj : MapsBlock j g) (hgf : ∀ k b, g k (f k b) = b) (s : State) :
    execAll [i, j] s = .next s := by
  rw [execAll_cons_of_next (hi s), execAll_cons_of_next (hj _), State.setBlock_setBlock, execAll]
  exact congrArg _ (State.setBlock_of_eq (hgf ..))

/-! ### The round and its inverse on the machine (R185, R186) -/

/-- Each nibble of `substitute_word` (40_word_primitives.md R111). -/
theorem nibble_substituteWord (tb : Tables) (w : Word) {j : Nat} (hj : j < 8) :
    nibble (substituteWord tb w) j = tb.sbox (nibble w j) :=
  nibble_mapNibbles tb.sbox w j hj

/-- SBOX sends each nibble of `inv_substitute_word` back (R114, R115). -/
theorem sbox_nibble_invSubstituteWord (tb : Tables) (w : Word) {j : Nat} (hj : j < 8) :
    tb.sbox (nibble (invSubstituteWord tb w) j) = nibble w j := by
  rw [← nibble_substituteWord tb _ hj, substituteWord_invSubstituteWord]

/-- Settles O24: `lp` is SBOX on every nibble of the old L (R180). -/
theorem roundMixesTheHalves : Obligations.RoundMixesTheHalves := by
  unfold Obligations.RoundMixesTheHalves
  intro s
  exact ⟨_, substituteWord Config.tables s.l, mapsBlock_round s,
    fun j hj => nibble_substituteWord _ _ hj, rfl, rfl, onlyBlock_setBlock ..⟩

/-- Settles O25: SBOX sends the nibbles of the new L back to those of `lp` (R181); the inverse laws
on the machine are R182 of the two functions. -/
theorem iroundUnmixesTheHalves : Obligations.IroundUnmixesTheHalves := by
  unfold Obligations.IroundUnmixesTheHalves
  intro s
  refine ⟨⟨_, rotl s.r 7 ^^^ KL s.k ^^^ s.l, mapsBlock_iround s, rfl,
      fun j hj => sbox_nibble_invSubstituteWord _ _ hj, rfl, onlyBlock_setBlock ..⟩, ?_, ?_⟩
  · exact mapsBlock_round.undo mapsBlock_iround (fun _ b => invRoundFn_roundFn _ b _ _) s
  · exact mapsBlock_iround.undo mapsBlock_round (fun _ b => roundFn_invRoundFn _ b _ _) s

/-! ### The round from primitives (R187) -/

/-- The three word registers written at once: what a stage of R187 or R188 leaves of a state. -/
def State.setWords (s : State) (l r t : Word) : State := ((s.setReg .l l).setReg .r r).setReg .t t

/-- The first six commands of R187: the new L in L, with `lp` kept in T and KR left in R. -/
theorem execAll_newLeft (s : State) (rest : List Instr) :
    execAll (.sbw .l :: .mov .t .l :: .xor .l .r :: .gkr .r :: .xor .l .r :: .rol .l 3 :: rest) s =
      execAll rest (s.setWords (rotl (substituteWord Config.tables s.l ^^^ s.r ^^^ KR s.k) 3)
        (KR s.k) (substituteWord Config.tables s.l)) := by
  rw [execAll_cons_of_next (mapsReg_sbw ..), execAll_cons_of_next (exec_mov ..),
    execAll_cons_of_next (exec_xor ..), execAll_cons_of_next (exec_gkr ..),
    execAll_cons_of_next (exec_xor ..), execAll_cons_of_next (mapsReg_rol .l (by decide) _)]
  rfl

/-- The last five commands of R187: from the new L in L and `lp` in T, the new R in R and in T. -/
theorem execAll_newRight (s : State) :
    execAll [.xor .t .l, .gkl .r, .xor .t .r, .ror .t 7, .mov .r .t] s =
      .next (s.setWords s.l (rotr (s.t ^^^ s.l ^^^ KL s.k) 7)
        (rotr (s.t ^^^ s.l ^^^ KL s.k) 7)) := by
  rw [execAll_cons_of_next (exec_xor ..), execAll_cons_of_next (exec_gkl ..),
    execAll_cons_of_next (exec_xor ..), execAll_cons_of_next (mapsReg_ror .t (by decide) _),
    execAll_cons_of_next (exec_mov ..), execAll]
  rfl

/-- Settles O26: the new L first, then the new R from it, as R180 does. -/
theorem roundFromPrimitives : Obligations.RoundFromPrimitives := by
  unfold Obligations.RoundFromPrimitives
  intro s
  refine ⟨_, mapsBlock_round s, ?_⟩
  rw [execAll_newLeft, execAll_newRight]
  rfl

/-! ### The inverse round from primitives (R188) -/

/-- The first four commands of R188: `lp` in R, with L as it was and KL left in T. -/
theorem execAll_recoverSubstituted (s : State) (rest : List Instr) :
    execAll (.rol .r 7 :: .gkl .t :: .xor .r .t :: .xor .r .l :: rest) s =
      execAll rest (s.setWords s.l (rotl s.r 7 ^^^ KL s.k ^^^ s.l) (KL s.k)) := by
  rw [execAll_cons_of_next (mapsReg_rol .r (by decide) _), execAll_cons_of_next (exec_gkl ..),
    execAll_cons_of_next (exec_xor ..), execAll_cons_of_next (exec_xor ..)]
  rfl

/-- The next five commands of R188: from `lp` in R, the previous R in T, with KR left in L. -/
theorem execAll_recoverRight (s : State) (rest : List Instr) :
    execAll (.mov .t .l :: .ror .t 3 :: .xor .t .r :: .gkr .l :: .xor .t .l :: rest) s =
      execAll rest (s.setWords (KR s.k) s.r (rotr s.l 3 ^^^ s.r ^^^ KR s.k)) := by
  rw [execAll_cons_of_next (exec_mov ..), execAll_cons_of_next (mapsReg_ror .t (by decide) _),
    execAll_cons_of_next (exec_xor ..), execAll_cons_of_next (exec_gkr ..),
    execAll_cons_of_next (exec_xor ..)]
  rfl

/-- The last three commands of R188: `lp` in R substituted back into L, and T moved to R. -/
theorem execAll_recoverLeft (s : State) :
    execAll [.isbw .r, .mov .l .r, .mov .r .t] s =
      .next (s.setWords (invSubstituteWord Config.tables s.r) s.t s.t) := by
  rw [execAll_cons_of_next (mapsReg_isbw ..), execAll_cons_of_next (exec_mov ..),
    execAll_cons_of_next (exec_mov ..), execAll]
  rfl

/-- Settles O27: `lp` first, then the previous R and the previous L from it, as R181 does. -/
theorem iroundFromPrimitives : Obligations.IroundFromPrimitives := by
  unfold Obligations.IroundFromPrimitives
  intro s
  refine ⟨_, mapsBlock_iround s, ?_⟩
  rw [execAll_recoverSubstituted, execAll_recoverRight, execAll_recoverLeft]
  rfl

end Sys2Proof.Machine
end

section
/-! O29 to O37: the drivers (43_drivers.md R200 to R213). The sequences the statements ask for are read
off the loops: `keyState` and `blockState` are the loops over the first indices of the loop order. The
single-stepped forms are run by induction over the loop order, each in a lemma of its own. -/

namespace Sys2Proof.Machine

open Sys2Proof.Claims

/-! ### The key states and the blocks between rounds (R200, R201) -/

theorem roundIndices_take_succ (i : Fin 31) :
    roundIndices.take (i.val + 1) = roundIndices.take i.val ++ [i] := by
  have hget : roundIndices[i.val]? = some i := by simp [roundIndices]
  rw [List.take_add_one, hget, Option.toList_some]

theorem roundIndices_take_all : roundIndices.take 31 = roundIndices :=
  List.take_of_length_le (by simp [roundIndices])

/-- `K_n` of R200: the key after the first `n` updates. -/
def keyState (key : Key) (n : Nat) : Key := advanceAll Config.tables (roundIndices.take n) key

theorem keyStates_keyState (key : Key) : KeyStates key (keyState key) :=
  ⟨rfl, fun i => by rw [keyState, roundIndices_take_succ, advanceAll_append]; rfl⟩

theorem keyState_all (key : Key) : keyState key 31 = advanceAll Config.tables roundIndices key := by
  rw [keyState, roundIndices_take_all]

theorem getElem_expandKeys (key : Key) (i : Fin 31) :
    (expandKeys Config.tables key)[i] = keyState key i.val :=
  expandKeys_get Config.tables key i

/-- Entry 0 of the cache is the key it was expanded from (R202). -/
theorem getElem_expandKeys_zero (key : Key) : (expandKeys Config.tables key)[(0 : Fin 31)] = key :=
  getElem_expandKeys key 0

/-- The block before round `n` of `encrypt` (R201). -/
def blockState (key : Key) (b : Block) (n : Nat) : Block :=
  encryptLoop Config.tables (roundIndices.take n) key b

theorem blockState_zero (key : Key) (b : Block) : blockState key b 0 = b := rfl

theorem blockState_succ (key : Key) (b : Block) (i : Fin 31) :
    blockState key b (i.val + 1) = roundFn Config.tables (blockState key b i.val)
      (KL (keyState key i.val)) (KR (keyState key i.val)) := by
  rw [blockState, roundIndices_take_succ, encryptLoop_append]
  rfl

theorem blockState_all (key : Key) (b : Block) :
    blockState key b 31 = encrypt Config.tables key b := by
  rw [blockState, roundIndices_take_all, encrypt]

/-! ### `encrypt` and `decrypt` (R204) -/

theorem decrypt_encrypt (key : Key) (b : Block) :
    decrypt Config.tables key (encrypt Config.tables key b) = b := by
  rw [decrypt_eq_undoLoop, encrypt, undoLoop_encryptLoop]

theorem encrypt_decrypt (key : Key) (b : Block) :
    encrypt Config.tables key (decrypt Config.tables key b) = b := by
  rw [decrypt_eq_undoLoop, encrypt, encryptLoop_undoLoop]

/-! ### The driver commands -/

theorem mapsBlock_enc : MapsBlock .enc (encrypt Config.tables) := exec_enc

/-- LDRK while `RKV = 1`, its index legal (R213). -/
theorem exec_ldrk_of_rkv {s : State} (hrkv : s.rkv = true) (i : Fin 31) :
    exec (.ldrk i) s = .next (s.setKey s.rkc[i]) := by
  rw [exec_ldrk, withImm_of_lt i.isLt, if_pos hrkv]

/-- Settles O29: `keyState` and `blockState` are the sequences. -/
theorem encRunsThirtyOneRounds : Obligations.EncRunsThirtyOneRounds := by
  unfold Obligations.EncRunsThirtyOneRounds
  intro s
  exact ⟨_, keyState s.k, blockState s.k (s.l, s.r), mapsBlock_enc s, keyStates_keyState s.k,
    blockState_zero .., blockState_succ s.k _, (blockState_all ..).symm, onlyBlock_setBlock ..⟩

/-- Settles O30: the cache of K holds `keyState` of K. -/
theorem kexpRecordsTheKeyStates : Obligations.KexpRecordsTheKeyStates := by
  unfold Obligations.KexpRecordsTheKeyStates
  intro s
  exact ⟨_, keyState s.k, exec_kexp s, keyStates_keyState s.k, getElem_expandKeys s.k,
    s.setCache_rkv _, s.reg_setCache _, s.setCache_k _, s.setCache_err _, s.setCache_ecause _,
    s.setCache_host _, s.setCache_replies _, s.setCache_resets _⟩

/-- Settles O31: the blocks DEC passes through are those of the encryption of its result, so each
comes from the next by the inverse of the round that led there (42_round.md R182). -/
theorem decRebuildsTheCacheAndUnrolls : Obligations.DecRebuildsTheCacheAndUnrolls := by
  unfold Obligations.DecRebuildsTheCacheAndUnrolls
  intro s
  have hlast : blockState s.k (decrypt Config.tables s.k (s.l, s.r)) 31 = (s.l, s.r) := by
    rw [blockState_all, encrypt_decrypt]
  refine ⟨_, keyState s.k, blockState s.k (decrypt Config.tables s.k (s.l, s.r)), exec_dec s,
    keyStates_keyState s.k, hlast, fun i => ?_, (blockState_zero ..).symm, getElem_expandKeys s.k, ?_⟩
  · rw [blockState_succ, invRoundFn_roundFn]
  · simp [SameHost]

/-- Settles O32: one lemma for each case of R213; entry 0 of the cache KEXP leaves is K itself. -/
theorem ldrkLoadsAnEntryOrRaises : Obligations.LdrkLoadsAnEntryOrRaises := by
  unfold Obligations.LdrkLoadsAnEntryOrRaises
  intro s
  refine ⟨fun i hrkv => ⟨_, exec_ldrk_of_rkv hrkv i, s.setKey_k _, onlyKey_setKey ..⟩,
    fun i hrkv => exec_ldrk_raises (Nat.le_of_lt_succ i.isLt) hrkv, fun i hi => ?_, ?_⟩
  · rw [exec_ldrk]
    exact withImm_raises (Nat.not_lt.mpr hi) s _
  · have hload : exec (.ldrk 0) (s.setCache (expandKeys Config.tables s.k)) = _ :=
      exec_ldrk_of_rkv (s.setCache_rkv _) 0
    rw [execAll_cons_of_next (exec_kexp s), execAll_cons_of_next hload, State.setCache_rkc,
      getElem_expandKeys_zero, exec_kexp, execAll, State.setKey_of_eq (s.setCache_k _).symm]

/-- Settles O33: each order leaves the cache of K, and the block as it was by R204. -/
theorem encAndDecUndoEachOther : Obligations.EncAndDecUndoEachOther := by
  unfold Obligations.EncAndDecUndoEachOther
  intro s
  rw [execAll_cons_of_next (exec_kexp s)]
  refine ⟨?_, ?_⟩
  · rw [execAll_cons_of_next (mapsBlock_enc s), execAll_cons_of_next (exec_dec _)]
    simp only [State.setBlock_k, State.setBlock_l, State.setBlock_r, Prod.mk.eta, decrypt_encrypt]
    rfl
  · rw [execAll_cons_of_next (exec_dec s), execAll_cons_of_next (mapsBlock_enc _)]
    simp only [State.setBlock_k, State.setBlock_l, State.setBlock_r, State.setCache_k,
      Prod.mk.eta, encrypt_decrypt, State.setBlock_setBlock]
    rw [State.setBlock_of_eq (s := s.setCache _) (b := (s.l, s.r)) rfl]

/-! ### The results depend on K, L and R alone (R205) -/

/-- Two states with the same K, L and R: a command that replaces the block by a function of those
leaves them the same. -/
theorem ReplacesBlock.congr {i : Instr} {f : Key → Block → Block} (hf : ReplacesBlock i f)
    {s s' : State} (hk : s.k = s'.k) (hl : s.l = s'.l) (hr : s.r = s'.r) :
    ∃ t t', exec i s = .next t ∧ exec i s' = .next t' ∧ t.l = t'.l ∧ t.r = t'.r ∧ t.k = t'.k := by
  obtain ⟨t, ht, hblock, htk, -⟩ := hf s
  obtain ⟨t', ht', hblock', htk', -⟩ := hf s'
  have hsame : (t.l, t.r) = (t'.l, t'.r) := by rw [hblock, hblock', hk, hl, hr]
  obtain ⟨hl', hr'⟩ := Prod.mk.inj hsame
  exact ⟨t, t', ht, ht', hl', hr', by rw [htk, htk', hk]⟩

/-- Settles O37: ENC and DEC each replace the block by a function of K and the block. -/
theorem driversDependOnKeyAndBlockAlone : Obligations.DriversDependOnKeyAndBlockAlone := by
  unfold Obligations.DriversDependOnKeyAndBlockAlone
  rintro s s' i (rfl | rfl) hk hl hr
  · exact replacesBlock_enc.congr hk hl hr
  · exact replacesBlock_dec.congr hk hl hr

/-! ### The single-stepped forms (R206, R210, R211) -/

theorem execAll_append_of_next {is : List Instr} {s t : State} (h : execAll is s = .next t)
    (js : List Instr) : execAll (is ++ js) s = execAll js t := by
  induction is generalizing s with
  | nil =>
    obtain rfl : s = t := by simpa [execAll] using h
    rfl
  | cons i is ih =>
    obtain ⟨u, hu, -⟩ := exec_effect i s
    rw [execAll_cons_of_next hu] at h
    rw [List.cons_append, execAll_cons_of_next hu, ih h]

/-- ROUND; ADVK i over the given indices is the loop of `encrypt`, its working key in K (R210). -/
theorem execAll_round_advk (is : List (Fin 31)) (s : State) :
    execAll (is.flatMap fun i : Fin 31 => [.round, .advk i]) s =
      .next ((s.setBlock (encryptLoop Config.tables is s.k (s.l, s.r))).setKey
        (advanceAll Config.tables is s.k)) := by
  induction is generalizing s with
  | nil => rfl
  | cons i is ih =>
    rw [List.flatMap_cons, List.cons_append, List.cons_append, List.nil_append,
      execAll_cons_of_next (mapsBlock_round s), execAll_cons_of_next (mapsKey_advk i _), ih]
    rfl

/-- Settles O34: the single-stepped form is the loop of `encrypt` over the whole loop order. -/
theorem encIsItsSingleSteppedForm : Obligations.EncIsItsSingleSteppedForm := by
  unfold Obligations.EncIsItsSingleSteppedForm
  intro s
  refine ⟨_, keyState s.k, mapsBlock_enc s, rfl, onlyBlock_setBlock .., keyStates_keyState s.k, ?_⟩
  rw [keyState_all]
  exact execAll_round_advk roundIndices s

/-- LDRK i; IROUND over the given indices, while `RKV = 1`, is phase 2 of `decrypt` on the cache as
it stands, with the entry loaded last in K (R211). -/
theorem execAll_ldrk_iround (is : List (Fin 31)) {s : State} (hrkv : s.rkv = true) :
    execAll (is.flatMap fun i : Fin 31 => [.ldrk i, .iround]) s =
      .next ((s.setBlock (decryptLoop Config.tables s.rkc is (s.l, s.r))).setKey
        ((is.map (s.rkc[·])).getLastD s.k)) := by
  induction is generalizing s with
  | nil => rfl
  | cons i is ih =>
    rw [List.flatMap_cons, List.cons_append, List.cons_append, List.nil_append,
      execAll_cons_of_next (exec_ldrk_of_rkv hrkv i), execAll_cons_of_next (mapsBlock_iround _),
      ih (s := (s.setKey s.rkc[i]).setBlock _) hrkv, List.map_cons, List.getLastD_cons]
    rfl

/-- The last entry that the descending order loads is entry 0. -/
theorem getLastD_map_reverse_roundIndices (f : Fin 31 → Key) (k : Key) :
    (roundIndices.reverse.map f).getLastD k = f 0 := by
  rw [roundIndices, List.finRange_succ, List.reverse_cons, List.map_append, List.map_singleton,
    List.getLastD_concat]

/-- KEXP; LDRK 30; IROUND; ... LDRK 0; IROUND: after KEXP the cache is that of K, so phase 2 on it is
`decrypt`, and entry 0, loaded last, is K (R211). -/
theorem execAll_kexp_ldrk_iround (s : State) :
    execAll (.kexp :: (List.finRange 31).reverse.flatMap fun i : Fin 31 => [.ldrk i, .iround]) s =
      exec .dec s := by
  rw [execAll_cons_of_next (exec_kexp s), ← roundIndices,
    execAll_ldrk_iround roundIndices.reverse (s.setCache_rkv _), getLastD_map_reverse_roundIndices,
    State.setCache_rkc, getElem_expandKeys_zero, State.setCache_l, State.setCache_r, ← decryptFrom,
    ← decrypt, State.setKey_of_eq (s := (s.setCache _).setBlock _) (k := s.k) rfl, exec_dec]

/-- Settles O35: the single-stepped form is DEC itself. -/
theorem decIsItsSingleSteppedForm : Obligations.DecIsItsSingleSteppedForm := by
  unfold Obligations.DecIsItsSingleSteppedForm
  intro s
  refine ⟨_, exec_dec s, ?_⟩
  rw [execAll_kexp_ldrk_iround, exec_dec]
  simp [SameHost]

/-- RETK i; IROUND over the indices backward, from the key the forward loop ends with, undoes that
loop and ends with the key it began with (R206). -/
theorem execAll_retk_iround (is : List (Fin 31)) (k : Key) (s : State) :
    execAll (is.reverse.flatMap fun i : Fin 31 => [.retk i, .iround])
        (s.setKey (advanceAll Config.tables is k)) =
      .next ((s.setKey k).setBlock (undoLoop Config.tables is k (s.l, s.r))) := by
  induction is generalizing k with
  | nil => rfl
  | cons i is ih =>
    rw [List.reverse_cons, List.flatMap_append, advanceAll, execAll_append_of_next (ih _),
      List.flatMap_singleton, execAll_cons_of_next (mapsKey_retk i _)]
    simp only [State.setBlock_k, State.setKey_k, retreatKey_advanceKey]
    rw [execAll_cons_of_next (mapsBlock_iround _)]
    rfl

/-- Settles O36: DEC is the same inverse rounds, with its keys from the cache (R203). -/
theorem decryptionByWalkingTheKeyBackward : Obligations.DecryptionByWalkingTheKeyBackward := by
  unfold Obligations.DecryptionByWalkingTheKeyBackward
  intro s
  refine ⟨_, keyState s.k, exec_dec s, keyStates_keyState s.k, ?_⟩
  rw [keyState_all, decrypt_eq_undoLoop]
  exact execAll_retk_iround roundIndices s.k s

end Sys2Proof.Machine
end

section
/-! O38, O41, O45, O49 and O50: the one exception (60_exceptions.md R230 to R234). What the rest of the
engine sees of ERR and ECAUSE is said by clearing the two fields (`State.clearError`), and what a step
does to STATUS is said once (`StatusStep`), from which both statements about steps follow. -/

namespace Sys2Proof.Machine

open Sys2Proof.Claims

/-! ### Raising, and the commands that do not (R230, R233) -/

/-- Settles O41: one raise, at each of the three causes. -/
theorem raisingSetsErrAndCauseOnly : Obligations.RaisingSetsErrAndCauseOnly := by
  unfold Obligations.RaisingSetsErrAndCauseOnly
  exact fun s => ⟨raised_raiseCmdError s .reservedOpcode, raised_raiseCmdError s .reservedField,
    raised_raiseCmdError s .keysNotValid⟩

/-- An admitted command leaves ECAUSE, as it leaves ERR (`Effect.err_eq`). -/
theorem Effect.ecause_eq {i : Instr} {s t : State} (h : Effect i s t) (hwf : i.WellFormed)
    (hldrk : ∀ n, i = .ldrk n → s.rkv = true) : t.ecause = s.ecause := by
  cases h with
  | word rd v => exact s.setReg_ecause rd v
  | block b => exact s.setBlock_ecause b
  | key k => exact s.setKey_ecause k
  | cache => exact s.setCache_ecause _
  | cacheBlock b => rw [State.setBlock_ecause, State.setCache_ecause]
  | badField h => exact absurd hwf h
  | notValid n hi h => exact absurd (hldrk n hi) (Bool.eq_false_iff.mp h)

/-- Settles O38: the effects that raise are those of an illegal immediate and of LDRK while
`RKV = 0`. -/
theorem admittedCommandsNeverRaise : Obligations.AdmittedCommandsNeverRaise := by
  unfold Obligations.AdmittedCommandsNeverRaise
  intro i s hwf hldrk
  obtain ⟨t, ht, heffect⟩ := exec_effect i s
  exact ⟨t, ht, heffect.err_eq hwf hldrk, heffect.ecause_eq hwf hldrk⟩

/-! ### The register window of a faulted engine (R234) -/

/-- The same state without the exception: ERR and ECAUSE are 0. -/
def State.clearError (s : State) : State := { s with err := false, ecause := 0#2 }

@[simp] theorem State.reg_clearError (s : State) (x : WordReg) : s.clearError.reg x = s.reg x := by
  cases x <;> rfl

theorem State.setReg_clearError (s : State) (rd : WordReg) (v : Word) :
    s.clearError.setReg rd v = (s.setReg rd v).clearError := by
  cases rd <;> rfl

/-- Only a read of STATUS shows the exception. -/
theorem State.regRead_clearError (s : State) {a : Fin 16} (h : HostReg.ofIndex a ≠ .status) :
    s.clearError.regRead a = s.regRead a := by
  cases hr : HostReg.ofIndex a with
  | cmd => rw [regRead_of_cmd _ hr, regRead_of_cmd _ hr]
  | status => exact absurd hr h
  | word x => rw [regRead_of_word _ hr, regRead_of_word _ hr, reg_clearError]
  | key q => rw [regRead_of_key _ hr, regRead_of_key _ hr]; rfl
  | reserved => rw [regRead_of_reserved _ hr, regRead_of_reserved _ hr]

/-- A data write neither reads the exception nor writes it. -/
theorem State.dataWrite_clearError (s : State) (a : Fin 16) (v : Word) :
    s.clearError.dataWrite a v = (s.dataWrite a v).clearError := by
  unfold State.dataWrite
  split
  next => rfl
  next => rfl
  next => rfl
  next x _ => exact s.setReg_clearError x v
  next => rfl

section RegWrite

variable (ex : Instr → State → Host.Outcome State Fault Refusal) (s : State) {a : Fin 16} (v : Word)

theorem regWrite_of_ne_zero (ha : a ≠ 0) : regWrite ex a v s = .next (s.dataWrite a v) := by
  obtain ⟨h0, -⟩ | ⟨-, h⟩ := regWrite_cases ex a v s
  · exact absurd h0 ha
  · exact h

theorem regWrite_zero_of_err (herr : s.err = true) : regWrite ex 0 v s = .next s :=
  (regWrite_of_cmd ex s v rfl).trans (commandWrite_of_err ex s v herr)

/-- No host write changes STATUS while the engine is faulted. -/
theorem sameStatus_of_regWrite {t : State} (herr : s.err = true)
    (h : regWrite ex a v s = .next t) : SameStatus s t := by
  by_cases ha : a = 0
  · subst ha
    cases (regWrite_zero_of_err ex s v herr).symm.trans h
    exact ⟨rfl, rfl, rfl⟩
  · cases (regWrite_of_ne_zero ex s v ha).symm.trans h
    exact sameStatus_dataWrite s a v

end RegWrite

/-- Settles O45: a faulted engine ignores CMD, and its other registers read and write as those of the
same state without the exception. -/
theorem faultedStateLastsUntilReset : Obligations.FaultedStateLastsUntilReset := by
  unfold Obligations.FaultedStateLastsUntilReset
  intro s herr
  refine ⟨fun w => regWrite_zero_of_err exec s w herr, fun a ha => ?_, fun a v ha => ?_,
    fun a v t h => ?_, s.takeReset_err⟩
  · have hstatus : HostReg.ofIndex a ≠ .status := fun h =>
      ha (HostReg.ofIndex_inj (b := a) (a := 1) (by decide) h)
    exact (s.regRead_clearError hstatus).symm
  · refine ⟨_, regWrite_of_ne_zero exec s v ha, ?_⟩
    exact (regWrite_of_ne_zero exec s.clearError v ha).trans
      (congrArg _ (s.dataWrite_clearError a v))
  · obtain ⟨hterr, -, hec⟩ := sameStatus_of_regWrite exec s v herr h
    exact ⟨hterr.trans herr, hec⟩

/-! ### STATUS over a step (R232, R234, 10_state.md R26) -/

/-- No command clears RKV (10_state.md R26). -/
theorem Effect.rkv_of_rkv {i : Instr} {s t : State} (h : Effect i s t) (hrkv : s.rkv = true) :
    t.rkv = true := by
  cases h with
  | word rd v => exact (s.setReg_rkv rd v).trans hrkv
  | block | key | badField | notValid => exact hrkv
  | cache => exact s.setCache_rkv _
  | cacheBlock b => rw [State.setBlock_rkv, State.setCache_rkv]

theorem rkc_dataWrite (s : State) (a : Fin 16) (v : Word) : (s.dataWrite a v).rkc = s.rkc := by
  obtain h | ⟨x, -, h⟩ | ⟨q, -, h⟩ := dataWrite_cases s a v <;> rw [h]
  · exact s.setReg_rkc x v
  · exact s.setKey_rkc _

/-- All a step can do to STATUS: reset clears it, an engine that is not faulted executes or refuses
the word written to CMD, and whatever else the host does leaves it and RKC alone. -/
inductive StatusStep (s t : State) : Prop where
  | reset (es : List HostEvent) (h : NextEvent s .reset es) (herr : t.err = false)
  | kept (hstatus : SameStatus s t) (hrkc : t.rkc = s.rkc)
  | command (w : Word) (es : List HostEvent) (h : NextEvent s (.write 0 w) es)
      (herr : s.err = false) (hrkv : s.rkv = true → t.rkv = true)

theorem StatusStep.of_stepEffect {s t : State} (h : StepEffect s t) : StatusStep s t := by
  cases h with
  | idle | read | ignored => exact .kept ⟨rfl, rfl, rfl⟩ rfl
  | data a v es => exact .kept (sameStatus_dataWrite (s.setHost es) a v) (rkc_dataWrite ..)
  | badWord w es e hnext herr => exact .command w es hnext herr id
  | command w es i t hnext herr _ hx => exact .command w es hnext herr (Effect.of_exec hx).rkv_of_rkv
  | reset es hnext => exact .reset es hnext rfl

/-- Settles O49: of the steps that are not resets only a command changes STATUS, and it runs only
while ERR is 0 and does not clear RKV. -/
theorem onlyResetClearsTheFault : Obligations.OnlyResetClearsTheFault := by
  unfold Obligations.OnlyResetClearsTheFault
  intro s t hstep hreset
  cases StatusStep.of_stepEffect (.of_step hstep) with
  | reset es hnext => exact absurd hnext (hreset es)
  | kept hstatus =>
    obtain ⟨herr, hrkv, hec⟩ := hstatus
    exact ⟨fun h => ⟨herr.trans h, hec, hrkv⟩, hrkv.trans⟩
  | command w es _ herr hrkv => exact ⟨fun h => absurd h (Bool.eq_false_iff.mp herr), hrkv⟩

/-- Settles O50: a step that takes no write to CMD is a reset, which clears ERR, or leaves STATUS and
RKC. -/
theorem onlyACommandCanRaise : Obligations.OnlyACommandCanRaise := by
  unfold Obligations.OnlyACommandCanRaise
  intro s t hstep hcmd
  cases StatusStep.of_stepEffect (.of_step hstep) with
  | reset es hnext herr =>
    exact ⟨fun h => absurd h (Bool.eq_false_iff.mp herr), fun hreset => absurd hnext (hreset es)⟩
  | kept hstatus hrkc =>
    obtain ⟨herr, hrkv, hec⟩ := hstatus
    exact ⟨herr.symm.trans, fun _ => ⟨⟨herr, hrkv, hec⟩, hrkc⟩⟩
  | command w es hnext => exact absurd hnext (hcmd w es)

end Sys2Proof.Machine
end

section
/-! O57 and O54: the cache over all steps, and the way out of a fault (70_reset_and_hazards.md R260,
R264). Only KEXP and DEC write RKC or set RKV, and they write the expansion of the K they find; every
other update leaves both, or clears RKV. -/

namespace Sys2Proof.Machine

open Sys2Proof.Claims

/-! ### The cache stays an expansion while `RKV = 1` (R264, 10_state.md R29) -/

namespace State.CacheExpanded

variable {s t : State}

/-- K is no part of the invariant: what leaves RKC and RKV keeps it. -/
theorem of_sameCache (hs : s.CacheExpanded) (hrkv : t.rkv = s.rkv) (hrkc : t.rkc = s.rkc) :
    t.CacheExpanded := by
  rwa [State.CacheExpanded, hrkv, hrkc]

/-- A refill asks nothing of the cache it replaces. -/
theorem setCache_expandKeys (s : State) (key : Key) :
    (s.setCache (expandKeys Config.tables key)).CacheExpanded :=
  fun _ => ⟨key, s.setCache_rkc _⟩

/-- Every command keeps the invariant, the key commands included. -/
theorem of_effect {i : Instr} (hs : s.CacheExpanded) (h : Effect i s t) : t.CacheExpanded := by
  cases h with
  | word rd v => exact hs.of_sameCache (s.setReg_rkv rd v) (s.setReg_rkc rd v)
  | block | key | badField | notValid => exact hs.of_sameCache rfl rfl
  | cache => exact setCache_expandKeys s s.k
  | cacheBlock b =>
    exact (setCache_expandKeys s s.k).of_sameCache (State.setBlock_rkv ..) (State.setBlock_rkc ..)

/-- Host accesses leave the cache, the writes to K included; a command keeps the invariant by its
effect; reset clears RKV. -/
theorem of_stepEffect (hs : s.CacheExpanded) (h : StepEffect s t) : t.CacheExpanded := by
  have hsh (es : List HostEvent) : (s.setHost es).CacheExpanded := hs
  cases h with
  | idle | read | ignored | badWord => exact hs.of_sameCache rfl rfl
  | data a v es =>
    obtain ⟨-, hrkv, -⟩ := sameStatus_dataWrite (s.setHost es) a v
    exact (hsh es).of_sameCache hrkv (rkc_dataWrite ..)
  | command w es i t _ _ _ hx => exact (hsh es).of_effect (.of_exec hx)
  | reset es => exact .of_not_rkv (State.takeReset_rkv _)

end State.CacheExpanded

/-- Settles O57, by the case split over what a step can do. -/
theorem stepsKeepTheCacheExpanded : Obligations.StepsKeepTheCacheExpanded := by
  unfold Obligations.StepsKeepTheCacheExpanded
  intro s t hs h
  exact hs.of_stepEffect (.of_step h)

/-! ### The reset event (R260, 60_exceptions.md R236) -/

/-- Settles O54: the step is `takeReset`, whatever ERR was; as it clears ERR, O48 gives the step of a
command that follows. -/
theorem resetEventLeavesTheFault : Obligations.ResetEventLeavesTheFault := by
  unfold Obligations.ResetEventLeavesTheFault
  intro s rest hnext
  have hstep : step s = .next (s.setHost rest).takeReset := step_of_host_cons hnext
  refine ⟨_, hstep, State.takeReset_err _, State.takeReset_rkv _, State.takeReset_ecause _,
    State.takeReset_host _, State.takeReset_replies _, fun w i rest' hrest hd => ?_⟩
  have hcmd : NextEvent (s.setHost rest).takeReset (.write 0 w) rest' := hrest
  exact stepRunsTheDecodedCommand _ w rest' i hcmd (State.takeReset_err _) hd

end Sys2Proof.Machine
end
